-- ==== Sys2Proof/Word.lean ====
section
/-! DEFINITION. The bit-vector types of the CMPE220 toy CPU core (00_scope.md R6 to R8, 30_encoding.md R71).
Each is as wide as the instruction format gives it. How many of its values a profile uses is an argument of
the model: `wordBits`, `nregs` and `immBits` of Config.lean (log 21). -/

namespace Sys2Proof

/-- "Word: unsigned 16-bit integer; the universal value type for registers, memory cells, and
instructions" (R6, R8). A profile with fewer `WORD_BITS` uses the low ones. -/
abbrev Word := BitVec 16

/-- An 8-bit character of the output stream (R31), and a byte of the model's memory list (log 3). -/
abbrev Byte := BitVec 8

/-- A register field: 3 bits, one of R0 to R7 (R20, R71). A profile with fewer `NREGS` uses the first ones. -/
abbrev RegIdx := BitVec 3

/-- The immediate field: 6 bits, unsigned 0 to 63 (R71, R77). A profile with fewer `IMM_BITS` uses the low
ones. -/
abbrev Imm := BitVec 6

/-- The opcode field: 4 bits (R71). -/
abbrev Opcode := BitVec 4

/-- The ALU control vector `d = zx nx zy ny f no`, most significant bit first (R111). -/
abbrev AluVector := BitVec 6

end Sys2Proof
end

