-- ==== Sys2Proof/Config.lean ====
section
/-! DEFINITION. The implementation parameters of 00_scope.md R6. Their canonical values stand in
Sys2Proof/Machine/Profile.lean. No parameter is a free value: 41_execution_cycle.md R152 leaves none. -/

namespace Sys2Proof

/-- `ADD_OPERAND_PROFILE` (R3, R80, R81): what the second operand of ADD and SUB may be. -/
inductive AddOperandProfile where
  /-- The canonical profile: a register, or the immediate when `r2` holds the selector (R80). -/
  | regOrImm
  /-- Always the immediate; `r2` is ignored (R81). -/
  | immOnly
  deriving DecidableEq, Repr

/-- `DIV_ZERO_POLICY` (R3, R168, R215). -/
inductive DivZeroPolicy where
  /-- The canonical policy: a zero divisor halts the core with `DivideByZero`. -/
  | fatal
  /-- The policy the spec calls `Continue`: the ALU's result is written back and the core goes on. -/
  | flaggedContinue
  deriving DecidableEq, Repr

/-- `SUB_CARRY_CONVENTION` (R116): what `cy` means after a subtraction. -/
inductive SubCarryConvention where
  /-- `cy = 1` when the subtraction borrows (default). -/
  | borrow
  /-- `cy = 1` when it does not. -/
  | notBorrow
  deriving DecidableEq, Repr

/-- `DIV_SIGNEDNESS` (R119, R120) and `MUL_OVERFLOW_SIGNEDNESS` (R118). -/
inductive Signedness where
  /-- The default of both parameters. -/
  | unsigned
  /-- The alternative of both parameters. -/
  | signed
  deriving DecidableEq, Repr

/-- The parameters of R6 that a run of the core takes. -/
structure Config where
  /-- `WORD_BITS`: the width of a Word; registers, memory cells and instructions have it (R6, R8). -/
  wordBits : Nat
  /-- `NREGS`: the number of general registers, R0 to R(NREGS-1) (R20). -/
  nregs : Nat
  /-- `IMM_BITS`: the width of the immediate field (R71, R77). -/
  immBits : Nat
  /-- `MEM_WORDS`: the number of words of memory (R50). -/
  memWords : Nat
  /-- `STACK_TOP`: the initial SP, the highest stack slot and the empty-stack mark (R26). -/
  stackTop : Word
  /-- `MMIO_OUT_ADDR`: the character output address (R58). -/
  mmioOutAddr : Word
  /-- `IMM_SELECTOR`: the `r2` value that selects the immediate of ADD and SUB (R80). -/
  immSelector : RegIdx
  addOperandProfile : AddOperandProfile
  divZeroPolicy : DivZeroPolicy
  /-- `EXTENDED`: whether LOAD and STORE exist (R84). -/
  extended : Bool
  subCarryConvention : SubCarryConvention
  divSignedness : Signedness
  mulOverflowSignedness : Signedness
  deriving DecidableEq, Repr

/-- The constraints on the parameters: `STACK_TOP < MEM_WORDS` (R6); every address and the successor of every
address is a Word (R24; log 22); the opcode, two register fields and the immediate fit in a word (R71); and
the types of Word.lean hold the words and name the registers (log 21). -/
abbrev Config.Valid (cfg : Config) : Prop :=
  cfg.stackTop.toNat < cfg.memWords ∧ cfg.memWords < 2 ^ cfg.wordBits ∧
    10 + cfg.immBits ≤ cfg.wordBits ∧ cfg.wordBits ≤ 16 ∧ cfg.nregs ≤ 8

/-- The widths that R6 gives for this hardware. The rules state the codec and the arithmetic with these
numbers (R8, R70 to R77, R113 to R120). -/
abbrev Config.SourceWidths (cfg : Config) : Prop :=
  cfg.wordBits = 16 ∧ cfg.nregs = 8 ∧ cfg.immBits = 6

/-- `trunc16(e)` of R8 for a Word of `WORD_BITS` bits: the low bits of a value, zero above. -/
def Config.trunc (cfg : Config) (v : Word) : Word :=
  (v.setWidth cfg.wordBits).setWidth 16

/-- The low `IMM_BITS` bits of an immediate field, zero above: the mask `imm & 0x3F` of R72. -/
def Config.maskImm (cfg : Config) (v : Imm) : Imm :=
  (v.setWidth cfg.immBits).setWidth 6

/-- `UNRESOLVED_LABEL_POLICY` (R97, decision D28): OPEN, an argument of the assembler. -/
inductive UnresolvedLabelPolicy where
  /-- Assembly fails with no output. -/
  | reject
  /-- There is output, and a distinguishable list of errors. -/
  | errorReturn
  /-- The source's behaviour: the field holds -1 masked, which is 63, and the error is reported. -/
  | sentinel63
  deriving DecidableEq, Repr

/-- `BIN_BYTE_ORDER` (R98, decision D29): OPEN, an argument of the binary writer. -/
inductive BinByteOrder where
  | big
  | little
  deriving DecidableEq, Repr

end Sys2Proof
end

