-- ==== Sys2Proof/Machine/Profile.lean ====
section
/-! DEFINITION. The canonical setting of the parameters (00_scope.md R3 and R6). It stands apart from
Config.lean because a test may show one of these values wrong ("Set the parameter", 92_eei_decisions.md). -/

namespace Sys2Proof

/-- The values R6 gives for this hardware. `immSelector`, `extended`, `subCarryConvention`,
`divSignedness` and `mulOverflowSignedness` are the spec's decisions D2, D5, D10, D11 and D12
(log 6 and 8); the others are the source's. -/
def Config.canonical : Config where
  wordBits := 16
  nregs := 8
  immBits := 6
  memWords := 400
  stackTop := 399
  mmioOutAddr := 32
  immSelector := 7
  addOperandProfile := .regOrImm
  divZeroPolicy := .fatal
  extended := true
  subCarryConvention := .borrow
  divSignedness := .unsigned
  mulOverflowSignedness := .unsigned

end Sys2Proof
end

