-- ==== Sys2Proof/Syntax.lean ====
section
/-! DEFINITION. The instructions: one constructor for each row of spec/opcode_table.json (30_encoding.md R79). -/

namespace Sys2Proof

/-- A decoded instruction. ADD and SUB have the two forms that the `r2` field selects (R80). -/
inductive Instr where
  /-- NOP: no state change (R160). -/
  | nop
  /-- MOV rd, imm (R161). -/
  | mov (rd : RegIdx) (imm : Imm)
  /-- ADD_imm: ADD rd, imm (R163, immediate form). -/
  | addImm (rd : RegIdx) (imm : Imm)
  /-- ADD_reg: ADD rd, rs (R163, register form). -/
  | addReg (rd rs : RegIdx)
  /-- SUB_imm: SUB rd, imm (R164, immediate form). -/
  | subImm (rd : RegIdx) (imm : Imm)
  /-- SUB_reg: SUB rd, rs (R164, register form). -/
  | subReg (rd rs : RegIdx)
  /-- AND rd, rs (R165). -/
  | and (rd rs : RegIdx)
  /-- OR rd, rs (R166). -/
  | or (rd rs : RegIdx)
  /-- MUL rd, rs (R167). -/
  | mul (rd rs : RegIdx)
  /-- DIV rd, rs (R168). -/
  | div (rd rs : RegIdx)
  /-- JMP target (R180). -/
  | jmp (target : Imm)
  /-- JZ target (R181). -/
  | jz (target : Imm)
  /-- CALL target (R182). -/
  | call (target : Imm)
  /-- RET (R183). -/
  | ret
  /-- HALT (R184). -/
  | halt
  /-- LOAD rd, ra (R201). -/
  | load (rd ra : RegIdx)
  /-- STORE rs, ra (R200). -/
  | store (rs ra : RegIdx)
  /-- ILLEGAL: a word whose opcode is not in the table (R83, R84). -/
  | illegal
  deriving DecidableEq, Repr

end Sys2Proof
end

