-- ==== Sys2Proof/WellFormed.lean ====
section
/-! DEFINITION. Which instruction terms a profile can encode (30_encoding.md R80, R81, R84, R95). -/

namespace Sys2Proof

/-- The register form of ADD and SUB exists under `RegOrImm` only, and cannot name the register whose
number is the selector (R80, R81, R95). -/
def registerFormOk (cfg : Config) (rs : RegIdx) : Bool :=
  cfg.addOperandProfile == .regOrImm && rs != cfg.immSelector

/-- Whether the profile has the form of the instruction at all (R80, R81, R84). -/
def Instr.formOk (cfg : Config) : Instr → Bool
  | .nop => true
  | .mov _ _ => true
  | .addImm _ _ => true
  | .addReg _ rs => registerFormOk cfg rs
  | .subImm _ _ => true
  | .subReg _ rs => registerFormOk cfg rs
  | .and _ _ => true
  | .or _ _ => true
  | .mul _ _ => true
  | .div _ _ => true
  | .jmp _ => true
  | .jz _ => true
  | .call _ => true
  | .ret => true
  | .halt => true
  | .load _ _ => cfg.extended
  | .store _ _ => cfg.extended
  | .illegal => true

/-- The registers that the instruction names (R21, R78). -/
def Instr.registers : Instr → List RegIdx
  | .nop => []
  | .mov rd _ => [rd]
  | .addImm rd _ => [rd]
  | .addReg rd rs => [rd, rs]
  | .subImm rd _ => [rd]
  | .subReg rd rs => [rd, rs]
  | .and rd rs => [rd, rs]
  | .or rd rs => [rd, rs]
  | .mul rd rs => [rd, rs]
  | .div rd rs => [rd, rs]
  | .jmp _ => []
  | .jz _ => []
  | .call _ => []
  | .ret => []
  | .halt => []
  | .load rd ra => [rd, ra]
  | .store rs ra => [rs, ra]
  | .illegal => []

/-- The literals and targets that the instruction holds (R77, R78). -/
def Instr.literals : Instr → List Imm
  | .nop => []
  | .mov _ imm => [imm]
  | .addImm _ imm => [imm]
  | .addReg _ _ => []
  | .subImm _ imm => [imm]
  | .subReg _ _ => []
  | .and _ _ => []
  | .or _ _ => []
  | .mul _ _ => []
  | .div _ _ => []
  | .jmp target => [target]
  | .jz target => [target]
  | .call target => [target]
  | .ret => []
  | .halt => []
  | .load _ _ => []
  | .store _ _ => []
  | .illegal => []

/-- Every register that the instruction names is one of the profile's `NREGS` (R6, R20, R76). -/
def Instr.registersExist (cfg : Config) (i : Instr) : Bool :=
  i.registers.all fun r => decide (r.toNat < cfg.nregs)

/-- Every literal of the instruction is an unsigned value of `IMM_BITS` bits (R6, R77). -/
def Instr.literalsFit (cfg : Config) (i : Instr) : Bool :=
  i.literals.all fun v => decide (v.toNat < 2 ^ cfg.immBits)

/-- A term that some word decodes to under `cfg`. -/
def Instr.wellFormed (cfg : Config) (i : Instr) : Bool :=
  i.formOk cfg && i.registersExist cfg && i.literalsFit cfg

end Sys2Proof
end

