-- ==== Sys2Proof/Decode.lean ====
section
/-! DEFINITION. The codec, the decoder and the encoder (30_encoding.md R70 to R87). The decoder is total
on all 65,536 words; a word whose opcode names no instruction is rejected by name, as `Instr.illegal`. -/

namespace Sys2Proof

/-- The four fields of an instruction word (R71). -/
structure Fields where
  op : Opcode
  r1 : RegIdx
  r2 : RegIdx
  imm : Imm
  deriving DecidableEq, Repr

/-- The lowest bit of the `op` field, which ends at the top bit of the word: 12 (R71). -/
def opPlace (cfg : Config) : Nat := cfg.wordBits - 4

/-- The lowest bit of the `r1` field, below `op`: 9 (R71). -/
def r1Place (cfg : Config) : Nat := cfg.wordBits - 7

/-- The lowest bit of the `r2` field, below `r1`: 6 (R71). The immediate stands at bit 0. -/
def r2Place (cfg : Config) : Nat := cfg.wordBits - 10

/-- The codec's `decode`: `op = word[15:12]`, `r1 = word[11:9]`, `r2 = word[8:6]`, `imm = word[5:0]` (R73).
In a profile whose fields do not fill the word, the bits between `imm` and `r2` are ignored (log 21). -/
def unpack (cfg : Config) (w : Word) : Fields where
  op := w.extractLsb' (opPlace cfg) 4
  r1 := w.extractLsb' (r1Place cfg) 3
  r2 := w.extractLsb' (r2Place cfg) 3
  imm := cfg.maskImm (w.extractLsb' 0 6)

/-- The codec's `encode` on fields: the immediate masked to `IMM_BITS`, each field shifted to its place
(R71, R72). -/
def pack (cfg : Config) (f : Fields) : Word :=
  f.op.setWidth 16 <<< opPlace cfg ||| f.r1.setWidth 16 <<< r1Place cfg |||
    f.r2.setWidth 16 <<< r2Place cfg ||| (cfg.maskImm f.imm).setWidth 16

/-- The codec's `encode` on integers of any size and sign: each is masked to its field's width,
"silently masked ..., never rejected" (R72, R74). -/
def packInts (cfg : Config) (op r1 r2 imm : Int) : Word :=
  pack cfg { op := .ofInt 4 op, r1 := .ofInt 3 r1, r2 := .ofInt 3 r2, imm := .ofInt 6 imm }

/-- Whether the second operand of an ADD or SUB whose `r2` field is `r2` is the immediate (R80, R81). -/
def takesImmediate (cfg : Config) (r2 : RegIdx) : Bool :=
  cfg.addOperandProfile == .immOnly || r2 == cfg.immSelector

/-- The instruction of the opcode map: dispatch on `op` alone, then the fields that R78 marks as used
(R79, R82, R86; for the other profiles R81 and R84). -/
def mappedInstr (cfg : Config) (f : Fields) : Instr :=
  match f.op.toNat with
  | 0 => .nop
  | 1 => .mov f.r1 f.imm
  | 2 => if takesImmediate cfg f.r2 then .addImm f.r1 f.imm else .addReg f.r1 f.r2
  | 3 => if takesImmediate cfg f.r2 then .subImm f.r1 f.imm else .subReg f.r1 f.r2
  | 4 => .and f.r1 f.r2
  | 5 => .or f.r1 f.r2
  | 6 => .mul f.r1 f.r2
  | 7 => .div f.r1 f.r2
  | 8 => .jmp f.imm
  | 9 => .jz f.imm
  | 10 => .call f.imm
  | 11 => .ret
  | 12 => .halt
  | 13 => if cfg.extended then .load f.r1 f.r2 else .illegal
  | 14 => if cfg.extended then .store f.r1 f.r2 else .illegal
  | _ => .illegal

/-- The instruction that the fields name. A used register field that names none of the `NREGS` registers
makes the word illegal; with the 8 registers of R6 there is no such field (log 21). -/
def instrOf (cfg : Config) (f : Fields) : Instr :=
  if (mappedInstr cfg f).registersExist cfg then mappedInstr cfg f else .illegal

/-- The full decoder, from a word to an instruction (R86). -/
def decode (cfg : Config) (w : Word) : Instr :=
  instrOf cfg (unpack cfg w)

/-- The opcode of each instruction (R79). -/
def Instr.opcode : Instr → Opcode
  | .nop => 0
  | .mov _ _ => 1
  | .addImm _ _ => 2
  | .addReg _ _ => 2
  | .subImm _ _ => 3
  | .subReg _ _ => 3
  | .and _ _ => 4
  | .or _ _ => 5
  | .mul _ _ => 6
  | .div _ _ => 7
  | .jmp _ => 8
  | .jz _ => 9
  | .call _ => 10
  | .ret => 11
  | .halt => 12
  | .load _ _ => 13
  | .store _ _ => 14
  | .illegal => 15

/-- The `r2` field of the immediate form of ADD and SUB: the selector, or 0 under `ImmOnly` (R94). -/
def selectorField (cfg : Config) : RegIdx :=
  match cfg.addOperandProfile with
  | .regOrImm => cfg.immSelector
  | .immOnly => 0

/-- The fields of an instruction's canonical word: 0 in every ignored field (R78, R94). -/
def Instr.fields (cfg : Config) (i : Instr) : Fields :=
  match i with
  | .nop => { op := i.opcode, r1 := 0, r2 := 0, imm := 0 }
  | .mov rd imm => { op := i.opcode, r1 := rd, r2 := 0, imm := imm }
  | .addImm rd imm => { op := i.opcode, r1 := rd, r2 := selectorField cfg, imm := imm }
  | .addReg rd rs => { op := i.opcode, r1 := rd, r2 := rs, imm := 0 }
  | .subImm rd imm => { op := i.opcode, r1 := rd, r2 := selectorField cfg, imm := imm }
  | .subReg rd rs => { op := i.opcode, r1 := rd, r2 := rs, imm := 0 }
  | .and rd rs => { op := i.opcode, r1 := rd, r2 := rs, imm := 0 }
  | .or rd rs => { op := i.opcode, r1 := rd, r2 := rs, imm := 0 }
  | .mul rd rs => { op := i.opcode, r1 := rd, r2 := rs, imm := 0 }
  | .div rd rs => { op := i.opcode, r1 := rd, r2 := rs, imm := 0 }
  | .jmp target => { op := i.opcode, r1 := 0, r2 := 0, imm := target }
  | .jz target => { op := i.opcode, r1 := 0, r2 := 0, imm := target }
  | .call target => { op := i.opcode, r1 := 0, r2 := 0, imm := target }
  | .ret => { op := i.opcode, r1 := 0, r2 := 0, imm := 0 }
  | .halt => { op := i.opcode, r1 := 0, r2 := 0, imm := 0 }
  | .load rd ra => { op := i.opcode, r1 := rd, r2 := ra, imm := 0 }
  | .store rs ra => { op := i.opcode, r1 := rs, r2 := ra, imm := 0 }
  | .illegal => { op := i.opcode, r1 := 0, r2 := 0, imm := 0 }

/-- The encoder: an instruction's canonical word (R87, R94). For `illegal` it is 0xF000 (R83). -/
def encode (cfg : Config) (i : Instr) : Word :=
  pack cfg (i.fields cfg)

/-- The decoder on a row of spec/opcode_table.json: an instruction is one word (R70), so a row has at
most 16 bits and the bits above `nbits` are 0. -/
def decodeTableWord (nbits w : Nat) : Option Instr :=
  if nbits ≤ 16 then some (decode Config.canonical (BitVec.ofNat 16 (w % 2 ^ nbits))) else none

end Sys2Proof
end

