-- ==== Sys2Proof/Machine/State.lean ====
section
/-! DEFINITION. The state of the machine, right after reset and at every step (10_state.md R20 to R39,
70_reset_and_hazards.md R240, R241), and the reasons a step can stop. -/

namespace Sys2Proof.Machine

/-- Why the core halted: the reasons of 60_exceptions.md R211. -/
inductive HaltReason where
  /-- The normal end, by HALT (R220). -/
  | halt
  /-- The cycle budget is exhausted; "soft-fatal" (R216). -/
  | incomplete
  /-- CALL with `SP == 0` (R213). -/
  | stackOverflow
  /-- RET with `SP >= STACK_TOP` (R214). -/
  | stackUnderflow
  /-- DIV by zero under the policy `Fatal` (R215). -/
  | divideByZero
  /-- An opcode that is not in the table (R217). -/
  | illegalOpcode
  /-- A fetch with `IP >= MEM_WORDS` (R218). -/
  | fetchOutOfRange
  /-- A LOAD at an address of `MEM_WORDS` or more (R219). -/
  | loadOutOfRange
  /-- A STORE at an address of `MEM_WORDS` or more (R219). -/
  | storeOutOfRange
  deriving DecidableEq, Repr

/-- The run status (R32): the engine's two states, with the reason of the end. -/
inductive Status where
  | running
  | halted (reason : HaltReason)
  deriving DecidableEq, Repr

/-- The four latched status flags (R28). -/
structure Flags where
  /-- The last ALU output was zero. -/
  zr : Bool
  /-- Bit 15 of the last ALU output was set. -/
  ng : Bool
  /-- Overflow. -/
  ov : Bool
  /-- Carry. -/
  cy : Bool
  deriving DecidableEq, Repr

/-- Memory (R35, R50) as the list of its bytes that differ from what an unlisted address reads as. The
word at address `a` has its low byte under the key `2a` and its high byte under `2a + 1`: the model's own
layout, which no instruction can observe (R53; log 3). Machine/Memory.lean reads and writes it. -/
abbrev Memory := List Host.Cell

/-- The machine's state: the record of R39, and before it the two fields that carry a run's parameters
(R39 keeps those out of the state; the host's step has no other place for them: log 1 and 2). -/
structure State where
  /-- The run's profile and sizes (R6). The model's own field; no step changes it. -/
  cfg : Config
  /-- The `budget` of the run (R141); `none` when no `run(budget)` has been called. The model's own
  field; no step changes it. -/
  budget : Option Nat
  /-- R0 to R7 (R20). A profile with fewer `NREGS` never reaches the last ones (log 21). -/
  reg : Vector Word 8
  /-- The instruction pointer (R22). -/
  ip : Word
  /-- The instruction register (R25). -/
  ir : Word
  /-- The stack pointer: the next free slot (R26). -/
  sp : Word
  /-- The latched flags (R28). -/
  flags : Flags
  /-- Memory (R35). -/
  mem : Memory
  /-- The run status (R32). -/
  status : Status
  /-- The cycles begun since `load_program` (R33). -/
  cycles : Nat
  /-- The recursion-depth counter, diagnostic only (R34). -/
  depth : Nat
  /-- The output stream, oldest character first (R31). -/
  out : List Byte
  deriving DecidableEq, Repr

/-- The reset values of R241, under the profile `cfg` and with memory `mem`. -/
def State.initial (cfg : Config) (mem : Memory) : State where
  cfg := cfg
  budget := none
  reg := Vector.replicate 8 0
  ip := 0
  ir := 0
  sp := cfg.stackTop
  flags := { zr := false, ng := false, ov := false, cy := false }
  mem := mem
  status := .running
  cycles := 0
  depth := 0
  out := []

/-- The machine right after `load_program` of an empty program, in the canonical profile (R240 to R242).
How a program comes to be in memory: log 16. -/
def State.reset : State :=
  State.initial Config.canonical []

/-- The reasons a step stops the machine. No instruction of a run ends in one: a fatal condition of the
spec is a next state whose status says so (R210). -/
inductive Fault where
  /-- Raised by `step` in a state whose status is `Halted`: "No step is taken from a `Halted` state"
  (R148). Safe: the spec takes no step there either (log 11). -/
  | halted (reason : HaltReason)
  /-- Raised by CALL and RET when the stack slot they reach is outside memory, which R27 and R56 say
  never happens. Safe: only states that no run reaches raise it (log 12). -/
  | stackSlotOutOfRange (slot : Word)
  deriving DecidableEq, Repr

/-- The reasons the model gives no meaning. -/
inductive Refusal where
  /-- An instruction that has no meaning yet. No arm of `exec` answers it. Safe: the run stops. -/
  | notModelled (mnemonic : String)
  /-- Raised by `loadProgram`: "A program of more than `MEM_WORDS` words cannot be loaded" (R242). Safe: the
  spec refuses it too. No step answers it. -/
  | programTooLong
  deriving DecidableEq, Repr

/-- What a step or a meaning answers. -/
abbrev Result := Host.Outcome State Fault Refusal

end Sys2Proof.Machine
end

