-- ==== Sys2Proof/Machine/Memory.lean ====
section
/-! DEFINITION. Memory: reading and writing bytes of the list, and the words that the core sees
(20_memory.md R50 to R56, 10_state.md R43). -/

namespace Sys2Proof.Machine

/-- What an address that is not listed reads as: memory that holds no program is 0x0000 after
`load_program` (R35, R241; log 5). -/
def Memory.blank : Byte := 0

/-- The byte under key `k`. -/
def Memory.getByte : Memory → Nat → Byte
  | [], _ => Memory.blank
  | c :: m, k => if c.1 = k then c.2 else Memory.getByte m k

/-- Put a cell in its place in a rising list that does not list its key. -/
def Memory.insert (c : Host.Cell) : Memory → Memory
  | [] => [c]
  | d :: m => if c.1 < d.1 then c :: d :: m else d :: Memory.insert c m

/-- Write the byte `b` under key `k`: the old entry goes, and a new one comes if it says anything. -/
def Memory.setByte (m : Memory) (k : Nat) (b : Byte) : Memory :=
  let rest := m.filter (fun c => c.1 != k)
  if b = Memory.blank then rest else Memory.insert (k, b) rest

/-- The Word at word address `a`: `MemRead(a, 1)` (R9, R52, R54). -/
def Memory.read (m : Memory) (a : Nat) : Word :=
  m.getByte (2 * a + 1) ++ m.getByte (2 * a)

/-- Store the Word `v` at word address `a`: `MemWrite(a, 1, v)` (R9, R52, R54). -/
def Memory.write (m : Memory) (a : Nat) (v : Word) : Memory :=
  (m.setByte (2 * a) (v.extractLsb' 0 8)).setByte (2 * a + 1) (v.extractLsb' 8 8)

/-- Memory with `words` at addresses `a`, `a + 1`, … and `m` elsewhere (R240). -/
def Memory.place (m : Memory) (a : Nat) : List Word → Memory
  | [] => m
  | w :: ws => Memory.place (m.write a w) (a + 1) ws

/-- The canonical form: keys strictly rising, and no entry that an unlisted address would read as. -/
abbrev Memory.wf (m : Memory) : Prop :=
  m.Pairwise (fun c d => c.1 < d.1) ∧ ∀ c ∈ m, c.2 ≠ Memory.blank

/-- Every listed byte belongs to one of the first `words` words. -/
abbrev Memory.Within (words : Nat) (m : Memory) : Prop :=
  ∀ c ∈ m, c.1 < 2 * words

end Sys2Proof.Machine
end

