-- ==== Sys2Proof/Machine/Ops.lean ====
section
/-! DEFINITION. The named operations on the state: registers, memory, flags, the stack, the output
stream, the two halves of the fetch, and taking a fatal condition. -/

namespace Sys2Proof.Machine

/-- `reg[r]` (R9, R20, R42). No register is hard-wired. -/
def State.readReg (s : State) (r : RegIdx) : Word :=
  s.reg[r.toNat]'r.isLt

/-- `reg[r] <- v` (R9, R20, R42). -/
def State.writeReg (s : State) (r : RegIdx) (v : Word) : State :=
  { s with reg := s.reg.set r.toNat v r.isLt }

/-- Whether a Word is the address of a memory word: it is below `MEM_WORDS` (R50, R56). -/
def State.inRange (s : State) (a : Word) : Bool :=
  decide (a.toNat < s.cfg.memWords)

/-- `MemRead(a, 1)` (R9). Reading the output cell has no side effect (R59). -/
def State.loadWord (s : State) (a : Word) : Word :=
  s.mem.read a.toNat

/-- `MemWrite(a, 1, v)` (R9). On its own it emits no character, whatever the address (R60). -/
def State.storeWord (s : State) (a v : Word) : State :=
  { s with mem := s.mem.write a.toNat v }

/-- `flags <- f`: all four at once (R9, R29). -/
def State.latch (s : State) (f : Flags) : State :=
  { s with flags := f }

/-- `IP <- a` (R9). -/
def State.jump (s : State) (a : Word) : State :=
  { s with ip := a }

/-- `emit(c)`: append one character to the output stream (R9, R31). -/
def State.emit (s : State) (c : Byte) : State :=
  { s with out := s.out ++ [c] }

/-- CALL's bookkeeping: `SP <- SP - 1; depth <- depth + 1` (R182, R34). -/
def State.pushed (s : State) : State :=
  { s with sp := s.sp - 1, depth := s.depth + 1 }

/-- RET's bookkeeping: `SP <- SP + 1; depth <- depth - 1` (R183, R34). `depth` is a natural number, so
it stays 0 in the states with depth 0 that no run reaches (log 13). -/
def State.popped (s : State) : State :=
  { s with sp := s.sp + 1, depth := s.depth - 1 }

/-- `status <- Halted(c)`. -/
def State.stopped (s : State) (c : HaltReason) : State :=
  { s with status := .halted c }

/-- Taking a fatal condition: `raise c` sets the status and ends the instruction with no other write
(R9, R210). Nothing is saved, no mode changes and control goes nowhere (R225), so there is no return
from it either: `Halted` is terminal (R226). -/
def raise (c : HaltReason) (s : State) : Result :=
  .next (s.stopped c)

/-- The count at the start of a cycle that passed the budget check (R145). -/
def State.counted (s : State) : State :=
  { s with cycles := s.cycles + 1 }

/-- The fetch's writes: `IR <- memory[IP]; IP <- (IP + 1) mod 2^16` (R142), 16 being `WORD_BITS`. -/
def State.fetched (s : State) : State :=
  { s with ir := s.loadWord s.ip, ip := s.cfg.trunc (s.ip + 1) }

/-- Whether the budget check ends the run: `cycles == budget` (R141). With no budget given there is
nothing to compare with (log 2). -/
def State.budgetSpent (s : State) : Bool :=
  s.budget == some s.cycles

/-- The numeric codes of the statuses (R211, the spec's decision D22; log 10). -/
def Status.code : Status → Nat
  | .running => 0
  | .halted .halt => 1
  | .halted .incomplete => 2
  | .halted .stackOverflow => 3
  | .halted .stackUnderflow => 4
  | .halted .divideByZero => 5
  | .halted .illegalOpcode => 6
  | .halted .fetchOutOfRange => 7
  | .halted .loadOutOfRange => 8
  | .halted .storeOutOfRange => 9

end Sys2Proof.Machine
end

