-- ==== Sys2Proof/Machine/Cycle.lean ====
section
/-! DEFINITION. The start of a cycle: the budget check, the fetch and the decode (41_execution_cycle.md
R140 to R146), and placing one word where the next fetch reads it. -/

namespace Sys2Proof.Machine

/-- What the start of a cycle comes to. -/
inductive CycleStart where
  /-- The status is `Halted`: no cycle begins (R148). -/
  | stuck (reason : HaltReason)
  /-- The budget check or the fetch ended the run in this state (R141, R142). -/
  | ended (s : State)
  /-- The fetch is done: execute this instruction in this state (R143, R144). -/
  | execute (i : Instr) (s : State)
  deriving DecidableEq, Repr

/-- The steps of R146 before `execute`, in the order of R223: the budget, then the fetch address; the
opcode comes with the decode. -/
def startCycle (s : State) : CycleStart :=
  match s.status with
  | .halted c => .stuck c
  | .running =>
    if s.budgetSpent then .ended (s.stopped .incomplete)
    else if s.inRange s.ip then .execute (decode s.cfg (s.loadWord s.ip)) s.counted.fetched
    else .ended (s.counted.stopped .fetchOutOfRange)

/-- `s` made ready so that its next step fetches the word `w`: the word stands at IP, and what would stop
the fetch (a halted status, a spent budget, an IP outside memory) is cleared (log 16). -/
def State.readyToFetch (s : State) (w : Word) : State :=
  let a := if s.inRange s.ip then s.ip else 0
  { s with
    mem := s.mem.write a.toNat w
    ip := a
    status := .running
    budget := if s.budgetSpent then none else s.budget }

end Sys2Proof.Machine
end

