-- ==== Sys2Proof/Machine/Operands.lean ====
section
/-! DEFINITION. Every operand form: the literal, the register, and the register-indirect address
(30_encoding.md R76, R77; 44_memory_access.md R202). -/

namespace Sys2Proof.Machine

/-- `zext_16(imm)`: the literal operand and the absolute jump target, 0x0000 to 0x003F. "It is the only
extension in this ISA" (R8, R77). -/
def literal (imm : Imm) : Word :=
  imm.setWidth 16

/-- The register operand `reg[r]` (R76). -/
def State.operand (s : State) (r : RegIdx) : Word :=
  s.readReg r

/-- The effective address `EA = reg[ra]`, a word index with no offset and no scaling (R202). -/
def State.address (s : State) (ra : RegIdx) : Word :=
  s.readReg ra

/-- The 8-bit character that a STORE of `v` to the output address emits: `v[7:0]` (R53, R58). -/
def lowByte (v : Word) : Byte :=
  v.extractLsb' 0 8

end Sys2Proof.Machine
end

