-- ==== Sys2Proof/Machine/Access.lean ====
section
/-! DEFINITION. LOAD and STORE (44_memory_access.md R200 to R202). -/

namespace Sys2Proof.Machine

/-- What a STORE's write does besides the write: one character if the address is `MMIO_OUT_ADDR`
(R58, R200). -/
def State.port (s : State) (a v : Word) : State :=
  if a = s.cfg.mmioOutAddr then s.emit (lowByte v) else s

/-- LOAD: `reg[rd] <- memory[reg[ra]]`, or `LoadOutOfRange`; the flags are unchanged (R201, R219). -/
def execLoad (rd ra : RegIdx) (s : State) : Result :=
  if s.inRange (s.address ra) then .next (s.writeReg rd (s.loadWord (s.address ra)))
  else raise .loadOutOfRange s

/-- STORE: `memory[reg[ra]] <- reg[rs]` and the output port, or `StoreOutOfRange` with no write and no
character (R200, R219). -/
def execStore (rs ra : RegIdx) (s : State) : Result :=
  if s.inRange (s.address ra) then
    .next ((s.storeWord (s.address ra) (s.operand rs)).port (s.address ra) (s.operand rs))
  else raise .storeOutOfRange s

end Sys2Proof.Machine
end

