-- ==== Sys2Proof/Machine/Flags.lean ====
section
/-! DEFINITION. Every flag computation (40_alu.md R113 to R121), for words of any width `w`; the spec's
numbers are those of `w` = 16 (00_scope.md R6). -/

namespace Sys2Proof.Machine

/-- The kind of an ALU row with its operands, which decides `ov` and `cy` (R114). -/
inductive AluKind (w : Nat) where
  | const
  | logic
  | add (a b : BitVec w)
  | sub (a b : BitVec w)
  | mul (x y : BitVec w)
  | div (x y : BitVec w)
  /-- A control vector outside the table (R112). -/
  | undefined
  deriving DecidableEq, Repr

/-- `zr = (out == 0x0000)`, for every vector (R113). -/
def zeroFlag {w : Nat} (out : BitVec w) : Bool :=
  out == 0

/-- `ng = out[15]`, for every vector (R113). -/
def negativeFlag {w : Nat} (out : BitVec w) : Bool :=
  out.msb

/-- `cy` of an addition: the unsigned carry out of bit 15, "= 1 iff a + b > 0xFFFF" (R115). -/
def addCarry {w : Nat} (a b : BitVec w) : Bool :=
  decide (2 ^ w ≤ a.toNat + b.toNat)

/-- `ov` of an addition: equal operand signs, and a result of the other sign (R115). -/
def addOverflow {w : Nat} (a b out : BitVec w) : Bool :=
  a.msb == b.msb && out.msb != a.msb

/-- `cy` of a subtraction, by the convention (R116). -/
def subCarry {w : Nat} (conv : SubCarryConvention) (a b : BitVec w) : Bool :=
  match conv with
  | .borrow => decide (a.toNat < b.toNat)
  | .notBorrow => decide (b.toNat ≤ a.toNat)

/-- `ov` of a subtraction: different operand signs, and a result whose sign is not the first's (R116). -/
def subOverflow {w : Nat} (a b out : BitVec w) : Bool :=
  a.msb != b.msb && out.msb != a.msb

/-- `ov = cy` of a multiplication: the exact product does not fit in 16 bits (R118). -/
def mulOverflow {w : Nat} (sign : Signedness) (x y : BitVec w) : Bool :=
  match sign with
  | .unsigned => decide (2 ^ w ≤ x.toNat * y.toNat)
  | .signed => 
    decide (x.toInt * y.toInt < -2 ^ (w - 1) ∨ 2 ^ (w - 1) ≤ x.toInt * y.toInt)

/-- `ov` of a division: a zero divisor, and under `Signed` the quotient +32768 (R119, R120). -/
def divOverflow {w : Nat} (sign : Signedness) (x y : BitVec w) : Bool :=
  match sign with
  | .unsigned => y == 0
  | .signed => y == 0 || (x == BitVec.intMin _ && y == BitVec.allOnes _)

/-- `ov` of a row, from its kind and its output (R115 to R121; for an undefined vector R112). -/
def overflowFlag {w : Nat} (cfg : Config) (out : BitVec w) : AluKind w → Bool
  | .const => false
  | .logic => false
  | .add a b => addOverflow a b out
  | .sub a b => subOverflow a b out
  | .mul x y => mulOverflow cfg.mulOverflowSignedness x y
  | .div x y => divOverflow cfg.divSignedness x y
  | .undefined => false

/-- `cy` of a row, from its kind (R115 to R121; for an undefined vector R112). -/
def carryFlag {w : Nat} (cfg : Config) : AluKind w → Bool
  | .const => false
  | .logic => false
  | .add a b => addCarry a b
  | .sub a b => subCarry cfg.subCarryConvention a b
  | .mul x y => mulOverflow cfg.mulOverflowSignedness x y
  | .div _ _ => false
  | .undefined => false

end Sys2Proof.Machine
end

