-- ==== Sys2Proof/Machine/Alu.lean ====
section
/-! DEFINITION. The ALU: all 64 control vectors (40_alu.md R110 to R124). -/

namespace Sys2Proof.Machine

/-- The named-operation form: the 20 rows of the table and one case for every other vector (R124). -/
inductive AluOp where
  | zero | one | minusOne
  | x | y | notX | notY | negX | negY
  | incX | incY | decX | decY
  | add | subXY | subYX
  | and | or
  | mul | div
  | undefined
  deriving DecidableEq, Repr

/-- The `d` column of "the canonical function table" (R112). -/
def aluTable : List (AluVector × AluOp) :=
  [ (0b101010#6, .zero), (0b111111#6, .one), (0b111010#6, .minusOne),
    (0b001100#6, .x), (0b110000#6, .y), (0b001101#6, .notX), (0b110001#6, .notY),
    (0b001111#6, .negX), (0b110011#6, .negY),
    (0b011111#6, .incX), (0b110111#6, .incY), (0b001110#6, .decX), (0b110010#6, .decY),
    (0b000010#6, .add), (0b010011#6, .subXY), (0b000111#6, .subYX),
    (0b000000#6, .and), (0b010101#6, .or),
    (0b111100#6, .mul), (0b111101#6, .div) ]

/-- The operation of a control vector: every vector outside the table maps to `undefined` (R112, R124). -/
def AluOp.ofVector (d : AluVector) : AluOp :=
  (aluTable.lookup d).getD .undefined

/-- The quotient under each signedness; 0 for a zero divisor. The signed quotient truncates toward zero
and wraps, so 0x8000 by 0xFFFF gives 0x8000 at 16 bits (R119, R120). -/
def quotient {w : Nat} (sign : Signedness) (x y : BitVec w) : BitVec w :=
  if y = 0 then 0
  else
    match sign with
    | .unsigned => BitVec.ofNat _ (x.toNat / y.toNat)
    | .signed => BitVec.ofInt _ (x.toInt.tdiv y.toInt)

/-- The `out` column of the table; 0 for an undefined vector (R112). -/
def AluOp.out {w : Nat} (cfg : Config) (op : AluOp) (x y : BitVec w) : BitVec w :=
  match op with
  | .zero => 0
  | .one => 1
  | .minusOne => BitVec.allOnes _
  | .x => x
  | .y => y
  | .notX => ~~~x
  | .notY => ~~~y
  | .negX => 0 - x
  | .negY => 0 - y
  | .incX => x + 1
  | .incY => y + 1
  | .decX => x - 1
  | .decY => y - 1
  | .add => x + y
  | .subXY => x - y
  | .subYX => y - x
  | .and => x &&& y
  | .or => x ||| y
  | .mul => x * y
  | .div => quotient cfg.divSignedness x y
  | .undefined => 0

/-- The kind and the operands of each row (R114). -/
def AluOp.kind {w : Nat} (op : AluOp) (x y : BitVec w) : AluKind w :=
  match op with
  | .zero => .const
  | .one => .const
  | .minusOne => .const
  | .x => .logic
  | .y => .logic
  | .notX => .logic
  | .notY => .logic
  | .negX => .sub 0 x
  | .negY => .sub 0 y
  | .incX => .add x 1
  | .incY => .add y 1
  | .decX => .sub x 1
  | .decY => .sub y 1
  | .add => .add x y
  | .subXY => .sub x y
  | .subYX => .sub y x
  | .and => .logic
  | .or => .logic
  | .mul => .mul x y
  | .div => .div x y
  | .undefined => .undefined

/-- What the ALU answers: a Word and five bits (R41, R110). -/
structure AluResult (w : Nat) where
  out : BitVec w
  zr : Bool
  ng : Bool
  ov : Bool
  cy : Bool
  /-- The undefined-instruction condition: reported, not latched, not fatal (R112, R222). -/
  undef : Bool
  deriving DecidableEq, Repr

/-- The four flags that the engine latches (R29). -/
def AluResult.flags {w : Nat} (r : AluResult w) : Flags where
  zr := r.zr
  ng := r.ng
  ov := r.ov
  cy := r.cy

/-- The ALU of width `w` on a named operation (R124). -/
def aluOf {w : Nat} (cfg : Config) (op : AluOp) (x y : BitVec w) : AluResult w where
  out := op.out cfg x y
  zr := zeroFlag (op.out cfg x y)
  ng := negativeFlag (op.out cfg x y)
  ov := overflowFlag cfg (op.out cfg x y) (op.kind x y)
  cy := carryFlag cfg (op.kind x y)
  undef := op == .undefined

/-- An answer of a narrower ALU as a Word, zero above its bits. -/
def AluResult.toWord {w : Nat} (r : AluResult w) : AluResult 16 where
  out := r.out.setWidth 16
  zr := r.zr
  ng := r.ng
  ov := r.ov
  cy := r.cy
  undef := r.undef

/-- `ALU(d, x, y)`: a pure function of the control vector and two Words (R110), of the profile's
`WORD_BITS`. -/
def alu (cfg : Config) (d : AluVector) (x y : Word) : AluResult 16 :=
  (aluOf cfg (AluOp.ofVector d) (x.setWidth cfg.wordBits) (y.setWidth cfg.wordBits)).toWord

/-- The preprocessing datapath of the source's prose: zero or complement each operand by `zx nx zy ny`,
add or and by `f`, complement by `no` (R111, R123). The table is normative; the two agree on 18 rows. -/
def datapath {w : Nat} (d : AluVector) (x y : BitVec w) : BitVec w :=
  let x0 := if d.getLsbD 5 then 0 else x
  let x1 := if d.getLsbD 4 then ~~~x0 else x0
  let y0 := if d.getLsbD 3 then 0 else y
  let y1 := if d.getLsbD 2 then ~~~y0 else y0
  let r := if d.getLsbD 1 then x1 + y1 else x1 &&& y1
  if d.getLsbD 0 then ~~~r else r

/-- `c[i]` of the ripple carry-chain (R115). -/
def carryChain {w : Nat} (a b : BitVec w) : Nat → Bool
  | 0 => false
  | i + 1 =>
    (a.getLsbD i && b.getLsbD i) || (a.getLsbD i && carryChain a b i) || (b.getLsbD i && carryChain a b i)

/-- The control vectors that the engine drives, by opcode (R122). -/
def vectorAdd : AluVector := 0b000010#6
def vectorSub : AluVector := 0b010011#6
def vectorAnd : AluVector := 0b000000#6
def vectorOr : AluVector := 0b010101#6
def vectorMul : AluVector := 0b111100#6
def vectorDiv : AluVector := 0b111101#6

end Sys2Proof.Machine
end

