-- ==== Sys2Proof/Machine/Arithmetic.lean ====
section
/-! DEFINITION. NOP, MOV, ADD, SUB, AND, OR, MUL and DIV (42_move_arith_logic.md R160 to R168). Each
meaning starts after the fetch: IP already holds the instruction's address + 1. -/

namespace Sys2Proof.Machine

/-- The common form of the ALU instructions: `x = reg[rd]`, the result goes to `reg[rd]` and all four
flags are latched from the same invocation. Both operands are read before either write (R143, R162). -/
def aluInto (d : AluVector) (rd : RegIdx) (y : Word) (s : State) : State :=
  let r := alu s.cfg d (s.operand rd) y
  (s.writeReg rd r.out).latch r.flags

/-- NOP: "no state change" (R160). -/
def execNop (s : State) : Result :=
  .next s

/-- MOV: `reg[rd] <- zext_16(imm)`; the flags are unchanged (R161). -/
def execMov (rd : RegIdx) (imm : Imm) (s : State) : Result :=
  .next (s.writeReg rd (literal imm))

/-- ADD, immediate form (R163). -/
def execAddImm (rd : RegIdx) (imm : Imm) (s : State) : Result :=
  .next (aluInto vectorAdd rd (literal imm) s)

/-- ADD, register form (R163). -/
def execAddReg (rd rs : RegIdx) (s : State) : Result :=
  .next (aluInto vectorAdd rd (s.operand rs) s)

/-- SUB, immediate form (R164). -/
def execSubImm (rd : RegIdx) (imm : Imm) (s : State) : Result :=
  .next (aluInto vectorSub rd (literal imm) s)

/-- SUB, register form (R164). -/
def execSubReg (rd rs : RegIdx) (s : State) : Result :=
  .next (aluInto vectorSub rd (s.operand rs) s)

/-- AND (R165). -/
def execAnd (rd rs : RegIdx) (s : State) : Result :=
  .next (aluInto vectorAnd rd (s.operand rs) s)

/-- OR (R166). -/
def execOr (rd rs : RegIdx) (s : State) : Result :=
  .next (aluInto vectorOr rd (s.operand rs) s)

/-- MUL (R167). -/
def execMul (rd rs : RegIdx) (s : State) : Result :=
  .next (aluInto vectorMul rd (s.operand rs) s)

/-- DIV: a zero divisor raises `DivideByZero` under `Fatal`, writing neither the register nor a flag, and
takes the ALU's result 0 with `ov` under `Continue` (R168, R215). -/
def execDiv (rd rs : RegIdx) (s : State) : Result :=
  if s.operand rs = 0 ∧ s.cfg.divZeroPolicy = .fatal then raise .divideByZero s
  else .next (aluInto vectorDiv rd (s.operand rs) s)

end Sys2Proof.Machine
end

