-- ==== Sys2Proof/Machine/Control.lean ====
section
/-! DEFINITION. JMP, JZ, CALL, RET, HALT (43_control_transfer.md R180 to R185) and the words that name no
instruction (30_encoding.md R83, R84). IP already holds the instruction's address + 1. -/

namespace Sys2Proof.Machine

/-- JMP: `IP <- zext_16(imm)` (R180). -/
def execJmp (target : Imm) (s : State) : Result :=
  .next (s.jump (literal target))

/-- JZ: `IP <- zext_16(imm)` if `zr` is set, otherwise IP stays past the JZ (R181). -/
def execJz (target : Imm) (s : State) : Result :=
  if s.flags.zr then .next (s.jump (literal target)) else .next s

/-- CALL: `StackOverflow` if `SP == 0`; otherwise push IP at `memory[SP]`, move SP down and jump. The push
emits no character (R60, R182, R213). -/
def execCall (target : Imm) (s : State) : Result :=
  if s.sp = 0 then raise .stackOverflow s
  else if s.inRange s.sp then .next ((s.storeWord s.sp s.ip).pushed.jump (literal target))
  else .fault (.stackSlotOutOfRange s.sp)

/-- RET: `StackUnderflow` if `SP >= STACK_TOP`; otherwise move SP up and load IP from `memory[SP]`
(R183, R214). -/
def execRet (s : State) : Result :=
  if s.cfg.stackTop.toNat ≤ s.sp.toNat then raise .stackUnderflow s
  else if s.inRange (s.sp + 1) then .next (s.popped.jump (s.loadWord (s.sp + 1)))
  else .fault (.stackSlotOutOfRange (s.sp + 1))

/-- HALT: `status <- Halted(Halt)` (R184, R220). -/
def execHalt (s : State) : Result :=
  .next (s.stopped .halt)

/-- An opcode that is not in the table: `raise IllegalOpcode` (R83, R84, R144, R217). -/
def execIllegal (s : State) : Result :=
  raise .illegalOpcode s

end Sys2Proof.Machine
end

