-- ==== Sys2Proof/Machine/Dispatch.lean ====
section
/-! DEFINITION. Dispatch: one arm for each instruction (41_execution_cycle.md R144). -/

namespace Sys2Proof.Machine

/-- The execute phase of one instruction, after its fetch (R144). -/
def exec (i : Instr) (s : State) : Host.Outcome State Fault Refusal :=
  match i with
  | .nop => Sys2Proof.Machine.execNop s
  | .mov rd imm => Sys2Proof.Machine.execMov rd imm s
  | .addImm rd imm => Sys2Proof.Machine.execAddImm rd imm s
  | .addReg rd rs => Sys2Proof.Machine.execAddReg rd rs s
  | .subImm rd imm => Sys2Proof.Machine.execSubImm rd imm s
  | .subReg rd rs => Sys2Proof.Machine.execSubReg rd rs s
  | .and rd rs => Sys2Proof.Machine.execAnd rd rs s
  | .or rd rs => Sys2Proof.Machine.execOr rd rs s
  | .mul rd rs => Sys2Proof.Machine.execMul rd rs s
  | .div rd rs => Sys2Proof.Machine.execDiv rd rs s
  | .jmp target => Sys2Proof.Machine.execJmp target s
  | .jz target => Sys2Proof.Machine.execJz target s
  | .call target => Sys2Proof.Machine.execCall target s
  | .ret => Sys2Proof.Machine.execRet s
  | .halt => Sys2Proof.Machine.execHalt s
  | .load rd ra => Sys2Proof.Machine.execLoad rd ra s
  | .store rs ra => Sys2Proof.Machine.execStore rs ra s
  | .illegal => Sys2Proof.Machine.execIllegal s

end Sys2Proof.Machine
end

