-- ==== Sys2Proof/Machine/Step.lean ====
section
/-! DEFINITION. One step of the machine: one complete cycle (41_execution_cycle.md R140, R146). -/

namespace Sys2Proof.Machine

/-- One complete fetch-decode-execute cycle (R146). -/
def step (s : State) : Host.Outcome State Fault Refusal :=
  match startCycle s with
  | .stuck c => .fault (.halted c)
  | .ended t => .next t
  | .execute i t => exec i t

/-- `s` with the instruction whose bits are `w` stored where `step` fetches its next one. An instruction
is one word (R70); of a row of `nbits` bits the bits above are 0 (log 16). -/
def State.withFetchWord (s : State) (nbits w : Nat) : State :=
  s.readyToFetch (BitVec.ofNat _ (w % 2 ^ nbits))

end Sys2Proof.Machine
end

