-- ==== Sys2Proof/Machine/Assembler.lean ====
section
/-! DEFINITION. The two-pass assembler: the textual ISA and its operand encoding (30_encoding.md R88 to
R101). Text is a list of characters. The layout of the printed listing and the file names are out of
scope (00_scope.md R5). -/

namespace Sys2Proof.Machine

/-! ### Lines (R88, R89) -/

/-- White space inside a line: space, tab and carriage return (log 17). -/
def isBlankChar (c : Char) : Bool :=
  c == ' ' || c == '\t' || c == '\r'

/-- Text without the white space around it. -/
def trimText (cs : List Char) : List Char :=
  ((cs.dropWhile isBlankChar).reverse.dropWhile isBlankChar).reverse

/-- The pieces between the characters `sep`; there is always at least one. -/
def splitText (sep : Char) : List Char → List (List Char)
  | [] => [[]]
  | c :: cs =>
    match splitText sep cs with
    | [] => [[c]]
    | p :: ps => if c = sep then [] :: p :: ps else (c :: p) :: ps

/-- A line without its comment: "`;` to end of line" (R88). -/
def stripComment (cs : List Char) : List Char :=
  cs.takeWhile (· != ';')

/-- A source line, split into its label and the rest (R88, R89). -/
structure SourceLine where
  /-- The line's number in the text, from 1. -/
  number : Nat
  /-- The original source line, which the listing shows (R98). -/
  text : List Char
  /-- The text before the first `:`, if there is one (R89). -/
  label : Option (List Char)
  /-- What remains: the instruction, or nothing (R91). -/
  body : List Char
  deriving DecidableEq, Repr

/-- Split one line. -/
def sourceLine (number : Nat) (text : List Char) : SourceLine :=
  let code := trimText (stripComment text)
  if code.contains ':' then
    { number := number, text := text
      label := some (trimText (code.takeWhile (· != ':')))
      body := trimText ((code.dropWhile (· != ':')).drop 1) }
  else { number := number, text := text, label := none, body := code }

/-- Number the lines of a text from `n`. -/
def numberLines (n : Nat) : List (List Char) → List SourceLine
  | [] => []
  | t :: ts => sourceLine n t :: numberLines (n + 1) ts

/-- The source lines of a text. -/
def sourceLines (text : List Char) : List SourceLine :=
  numberLines 1 (splitText '\n' text)

/-! ### Mnemonics and operand tokens (R91, R92) -/

/-- The fifteen mnemonics (R91). -/
inductive Mnemonic where
  | nop | mov | add | sub | and | or | mul | div
  | jmp | jz | call | ret | halt | load | store
  deriving DecidableEq, Repr

/-- The spelling of each mnemonic (R91). -/
def mnemonicTable : List (List Char × Mnemonic) :=
  [ (['N', 'O', 'P'], .nop), (['M', 'O', 'V'], .mov), (['A', 'D', 'D'], .add), (['S', 'U', 'B'], .sub),
    (['A', 'N', 'D'], .and), (['O', 'R'], .or), (['M', 'U', 'L'], .mul), (['D', 'I', 'V'], .div),
    (['J', 'M', 'P'], .jmp), (['J', 'Z'], .jz), (['C', 'A', 'L', 'L'], .call), (['R', 'E', 'T'], .ret),
    (['H', 'A', 'L', 'T'], .halt), (['L', 'O', 'A', 'D'], .load), (['S', 'T', 'O', 'R', 'E'], .store) ]

/-- LOAD and STORE are accepted only when `EXTENDED = true` (R91). -/
def Mnemonic.accepted (cfg : Config) : Mnemonic → Bool
  | .load => cfg.extended
  | .store => cfg.extended
  | _ => true

/-- The "case-insensitive lookup" of a mnemonic (R91). -/
def mnemonicOf (cfg : Config) (word : List Char) : Option Mnemonic :=
  (mnemonicTable.lookup (word.map Char.toUpper)).filter (Mnemonic.accepted cfg)

/-- The mnemonic part of an instruction: up to the first white space (R91). -/
def mnemonicText (body : List Char) : List Char :=
  body.takeWhile (fun c => !isBlankChar c)

/-- The operand part, as "comma-separated operand tokens (each trimmed of whitespace)" (R91). -/
def operandTexts (body : List Char) : List (List Char) :=
  let rest := trimText (body.dropWhile (fun c => !isBlankChar c))
  if rest = [] then [] else (splitText ',' rest).map trimText

/-- What can be wrong with a line (R89, R91 to R95, R97). -/
inductive AsmProblem where
  /-- The mnemonic is not in the table. -/
  | unknownMnemonic
  /-- The wrong number of operands. -/
  | operandCount
  /-- `R` followed by a number above 7, or that is no register of the profile. -/
  | badRegister
  /-- A token that starts with a digit or `-` and is not a literal. -/
  | badLiteral
  /-- A token that is not a register where a register stands. -/
  | registerExpected
  /-- A register where a literal or label stands (log 20). -/
  | valueExpected
  /-- `ADD rd, rs` or `SUB rd, rs` whose `rs` no word can name (R94, R95). -/
  | registerNotEncodable
  /-- A label that pass 1 did not find (R97). -/
  | unresolvedLabel
  /-- A label defined a second time (R89). -/
  | duplicateLabel
  deriving DecidableEq, Repr

/-- A reported error: the line's number and what is wrong. -/
structure AsmError where
  line : Nat
  problem : AsmProblem
  deriving DecidableEq, Repr

/-- An operand token (R92). -/
inductive Token where
  | register (r : RegIdx)
  | literal (v : Int)
  | label (name : List Char)
  deriving DecidableEq, Repr

/-- The value of decimal digits. -/
def digitsValue (cs : List Char) : Nat :=
  cs.foldl (fun n c => 10 * n + (c.toNat - '0'.toNat)) 0

/-- One or more decimal digits. -/
def isNumber (cs : List Char) : Bool :=
  !cs.isEmpty && cs.all Char.isDigit

/-- A literal is `-?[0-9]+` (R92). -/
def literalOf (cs : List Char) : Except AsmProblem Token :=
  match cs with
  | '-' :: ds => if isNumber ds then .ok (.literal (-(digitsValue ds : Int))) else .error .badLiteral
  | ds => if isNumber ds then .ok (.literal (digitsValue ds : Int)) else .error .badLiteral

/-- Classify a token, in the order of R92: a register, a literal, otherwise a label. -/
def tokenOf (cfg : Config) (cs : List Char) : Except AsmProblem Token :=
  match cs with
  | [] => .ok (.label [])
  | c :: ds =>
    if (c == 'R' || c == 'r') && isNumber ds then
      if digitsValue ds < cfg.nregs then .ok (.register (BitVec.ofNat 3 (digitsValue ds)))
      else .error .badRegister
    else if c.isDigit || c == '-' then literalOf cs
    else .ok (.label cs)

/-! ### Pass 1 (R89, R90) -/

/-- What pass 1 knows: the labels with their addresses, the count of instructions, the errors. -/
structure Labels where
  table : List (List Char × Nat)
  count : Nat
  errors : List AsmError
  deriving DecidableEq, Repr

/-- Whether a line defines a label that the table already has. Names are compared letter for letter, so `a` and
`A` are two labels: the model's choice (log 25). -/
def redefines (table : List (List Char × Nat)) (l : SourceLine) : Bool :=
  match l.label with
  | none => false
  | some name => (table.lookup name).isSome

/-- Record a line's label at the count so far; the first definition of a name is kept, and a second one
is reported (R89). Names keep their case (log 25). -/
def recordLabel (k : Labels) (l : SourceLine) : Labels :=
  match l.label with
  | none => k
  | some name =>
    if redefines k.table l then
      { k with errors := k.errors ++ [{ line := l.number, problem := .duplicateLabel }] }
    else { k with table := k.table ++ [(name, k.count)] }

/-- Whether pass 1 counts a line: its mnemonic is known (R90). -/
def countsInPass1 (cfg : Config) (l : SourceLine) : Bool :=
  (mnemonicOf cfg (mnemonicText l.body)).isSome

/-- Pass 1 on one line: the label is recorded, then the instruction is counted (R89, R90). -/
def pass1Line (cfg : Config) (k : Labels) (l : SourceLine) : Labels :=
  let k' := recordLabel k l
  if countsInPass1 cfg l then { k' with count := k'.count + 1 } else k'

/-- Pass 1: the label table, complete before any instruction is encoded (R89). -/
def pass1 (cfg : Config) (lines : List SourceLine) : Labels :=
  lines.foldl (pass1Line cfg) { table := [], count := 0, errors := [] }

/-! ### Pass 2 (R91 to R97) -/

/-- A line's instruction, and the error that is reported with it if it holds the sentinel (R97). -/
structure Encoded where
  instr : Instr
  problem : Option AsmProblem
  deriving DecidableEq, Repr

/-- The register of a token in a register position (R92). -/
def registerOf : Token → Except AsmProblem RegIdx
  | .register r => .ok r
  | .literal _ => .error .registerExpected
  | .label _ => .error .registerExpected

/-- The `imm` field of a literal or a label, masked by the codec, and the error of an
unresolved label under `Sentinel63`; under the other policies its line gets no word (R96, R97; log 18).
The name is looked up with its case (log 25). -/
def immediateOf (cfg : Config) (policy : UnresolvedLabelPolicy) (table : List (List Char × Nat)) :
    Token → Except AsmProblem (Imm × Option AsmProblem)
  | .register _ => .error .valueExpected
  | .literal v => .ok (cfg.maskImm (.ofInt 6 v), none)
  | .label name =>
    match table.lookup name with
    | some a => .ok (cfg.maskImm (.ofInt 6 a), none)
    | none =>
      match policy with
      | .sentinel63 => .ok (cfg.maskImm (.ofInt 6 (-1)), some .unresolvedLabel)
      | .reject => .error .unresolvedLabel
      | .errorReturn => .error .unresolvedLabel

/-- The shape with no operands (R93). -/
def noOperands (i : Instr) (ts : List Token) : Except AsmProblem Encoded :=
  match ts with
  | [] => .ok { instr := i, problem := none }
  | _ => .error .operandCount

/-- The shape `register, register` (R93). -/
def twoRegisters (form : RegIdx → RegIdx → Instr) (ts : List Token) : Except AsmProblem Encoded :=
  match ts with
  | [a, b] => do
    let ra ← registerOf a
    let rb ← registerOf b
    return { instr := form ra rb, problem := none }
  | _ => .error .operandCount

/-- The shape `register, immediate-or-label` (R93). -/
def registerAndValue (cfg : Config) (policy : UnresolvedLabelPolicy) (table : List (List Char × Nat))
    (form : RegIdx → Imm → Instr) (ts : List Token) : Except AsmProblem Encoded :=
  match ts with
  | [a, b] => do
    let ra ← registerOf a
    let (v, p) ← immediateOf cfg policy table b
    return { instr := form ra v, problem := p }
  | _ => .error .operandCount

/-- The shape `immediate-or-label` (R93). -/
def oneValue (cfg : Config) (policy : UnresolvedLabelPolicy) (table : List (List Char × Nat))
    (form : Imm → Instr) (ts : List Token) : Except AsmProblem Encoded :=
  match ts with
  | [a] => do
    let (v, p) ← immediateOf cfg policy table a
    return { instr := form v, problem := p }
  | _ => .error .operandCount

/-- The two shapes of ADD and SUB: a register form, refused where no word can hold it, and an immediate
form (R93 to R95). -/
def registerOrValue (cfg : Config) (policy : UnresolvedLabelPolicy) (table : List (List Char × Nat))
    (regForm : RegIdx → RegIdx → Instr) (immForm : RegIdx → Imm → Instr) (ts : List Token) :
    Except AsmProblem Encoded :=
  match ts with
  | [a, .register rb] => do
    let ra ← registerOf a
    if registerFormOk cfg rb then return { instr := regForm ra rb, problem := none }
    else throw .registerNotEncodable
  | ts => registerAndValue cfg policy table immForm ts

/-- The instruction of a mnemonic and its operand tokens (R93, R94). -/
def instrOfTokens (cfg : Config) (policy : UnresolvedLabelPolicy) (table : List (List Char × Nat))
    (m : Mnemonic) (ts : List Token) : Except AsmProblem Encoded :=
  match m with
  | .nop => noOperands .nop ts
  | .mov => registerAndValue cfg policy table .mov ts
  | .add => registerOrValue cfg policy table .addReg .addImm ts
  | .sub => registerOrValue cfg policy table .subReg .subImm ts
  | .and => twoRegisters .and ts
  | .or => twoRegisters .or ts
  | .mul => twoRegisters .mul ts
  | .div => twoRegisters .div ts
  | .jmp => oneValue cfg policy table .jmp ts
  | .jz => oneValue cfg policy table .jz ts
  | .call => oneValue cfg policy table .call ts
  | .ret => noOperands .ret ts
  | .halt => noOperands .halt ts
  | .load => twoRegisters .load ts
  | .store => twoRegisters .store ts

/-- Classify every token of a line (R92). -/
def tokensOf (cfg : Config) : List (List Char) → Except AsmProblem (List Token)
  | [] => .ok []
  | t :: ts => do
    let x ← tokenOf cfg t
    let xs ← tokensOf cfg ts
    return x :: xs

/-- Encode the instruction on a line, or say what is wrong with it (R91 to R95). Of several problems only the
first is reported, in the order mnemonic, operand tokens from the left, shape and registers, value: the
model's choice (log 24). -/
def encodeBody (cfg : Config) (policy : UnresolvedLabelPolicy) (table : List (List Char × Nat))
    (body : List Char) : Except AsmProblem Encoded :=
  match mnemonicOf cfg (mnemonicText body) with
  | none => .error .unknownMnemonic
  | some m => do
    let ts ← tokensOf cfg (operandTexts body)
    instrOfTokens cfg policy table m ts

/-- One row of the listing: the word, its index and its source line (R98). -/
structure ListingRow where
  index : Nat
  word : Word
  source : List Char
  deriving DecidableEq, Repr

/-- What pass 2 has made so far. `seen` holds the labels met, to know a second definition. -/
structure Emitted where
  rows : List ListingRow
  errors : List AsmError
  seen : List (List Char × Nat)
  deriving DecidableEq, Repr

/-- Report a problem of a line. -/
def Emitted.report (e : Emitted) (l : SourceLine) (p : AsmProblem) : Emitted :=
  { e with errors := e.errors ++ [{ line := l.number, problem := p }] }

/-- Append the canonical word of an instruction, at the next index (R94, R101). -/
def Emitted.append (cfg : Config) (e : Emitted) (l : SourceLine) (i : Instr) : Emitted :=
  { e with rows := e.rows ++ [{ index := e.rows.length, word := encode cfg i, source := l.text }] }

/-- Encode one line that is not skipped: its word, its error, or both under `Sentinel63` (R97). -/
def emitBody (cfg : Config) (policy : UnresolvedLabelPolicy) (table : List (List Char × Nat))
    (e : Emitted) (l : SourceLine) : Emitted :=
  if l.body = [] then e
  else
    match encodeBody cfg policy table l.body with
    | .error p => e.report l p
    | .ok c =>
      match c.problem with
      | none => e.append cfg l c.instr
      | some p => (e.append cfg l c.instr).report l p

/-- Pass 2 on one line. A line that defines a label again was reported by pass 1 and is skipped, as every
line with an error is (D27; log 19). What else is wrong with it is not looked for, an unresolved label
under `Reject` included: the model's choice (log 24). -/
def pass2Line (cfg : Config) (policy : UnresolvedLabelPolicy) (table : List (List Char × Nat))
    (e : Emitted) (l : SourceLine) : Emitted :=
  if redefines e.seen l then e
  else
    match l.label with
    | none => emitBody cfg policy table e l
    | some name => emitBody cfg policy table { e with seen := e.seen ++ [(name, 0)] } l

/-- Pass 2 (R91). -/
def pass2 (cfg : Config) (policy : UnresolvedLabelPolicy) (table : List (List Char × Nat))
    (lines : List SourceLine) : Emitted :=
  lines.foldl (pass2Line cfg policy table) { rows := [], errors := [], seen := [] }

/-! ### The assembler (R97, R98) -/

/-- What the assembler returns. `listing` is absent when assembly fails outright (R97, policy `Reject`);
the errors are reported after both passes. -/
structure Assembly where
  listing : Option (List ListingRow)
  errors : List AsmError
  deriving DecidableEq, Repr

/-- Assemble a text (R88 to R101). -/
def assemble (cfg : Config) (policy : UnresolvedLabelPolicy) (text : List Char) : Assembly :=
  let lines := sourceLines text
  let k := pass1 cfg lines
  let e := pass2 cfg policy k.table lines
  let errors := k.errors ++ e.errors
  if policy = .reject ∧ errors.any (·.problem == .unresolvedLabel) then
    { listing := none, errors := errors }
  else { listing := some e.rows, errors := errors }

/-- The words of an assembly, in emission order; none where it failed (R101). -/
def Assembly.words (a : Assembly) : List Word :=
  (a.listing.getD []).map ListingRow.word

/-- "the resolved instruction count": it "reflects only lines that reached encoding" (R97, R98). -/
def Assembly.instructionCount (a : Assembly) : Nat :=
  a.words.length

/-- The two bytes of a word in the binary file (R98). -/
def wordBytes (order : BinByteOrder) (w : Word) : List Byte :=
  match order with
  | .big => [w.extractLsb' 8 8, w.extractLsb' 0 8]
  | .little => [w.extractLsb' 0 8, w.extractLsb' 8 8]

/-- The binary file: "the Word sequence with no header" (R98). -/
def binaryFile (order : BinByteOrder) (ws : List Word) : List Byte :=
  ws.flatMap (wordBytes order)

end Sys2Proof.Machine
end

