-- ==== Sys2Proof/Machine/HostInterface.lean ====
section
/-! DEFINITION. The host's two operations on the core, `load_program` and `run` (10_state.md R45). -/

namespace Sys2Proof.Machine

/-- `load_program(words)`: every field takes its reset value and the words go to addresses 0 to n-1; a
program of more than `MEM_WORDS` words is refused (R240 to R242). -/
def loadProgram (cfg : Config) (words : List Word) : Result :=
  if words.length ≤ cfg.memWords then .next (State.initial cfg (Memory.place [] 0 words))
  else .refused .programTooLong

/-- Apply `step` at most `n` times while the status is `Running` (R147). A step of a running core that
answers no next state leaves the state as it is; no state that a run reaches has such a step (R221). -/
def runFor : Nat → State → State
  | 0, s => s
  | n + 1, s =>
    match s.status with
    | .halted _ => s
    | .running =>
      match step s with
      | .next t => runFor n t
      | .fault _ => s
      | .refused _ => s

/-- `run(budget)` on a core that is `Running` (R45, R147). It returns the final state, whose status holds
the reason. The run has begun `s.cycles` cycles, so `budget + 1` steps reach its end. A core that has
halted is not resumed (R148). -/
def run (budget : Nat) (s : State) : State :=
  match s.status with
  | .halted _ => s
  | .running => runFor (budget + 1) { s with budget := some budget }

end Sys2Proof.Machine
end

