-- ==== Sys2Proof/Safety.lean ====
section
/-! DEFINITION. What claims about the machine are stated in terms of: the invariant of its runs, the kinds
of ends, and what an instruction leaves unchanged. -/

namespace Sys2Proof.Machine

/-- The invariant that holds in every state a run reaches. -/
structure State.Inv (s : State) : Prop where
  /-- The parameters meet their constraints (R6, R24, R71). -/
  sizes : s.cfg.Valid
  /-- The memory list is in its canonical form (log 3). -/
  memoryForm : Memory.wf s.mem
  /-- Nothing is stored outside the `MEM_WORDS` words (R50, R56). -/
  memoryRange : Memory.Within s.cfg.memWords s.mem
  /-- "Every register, memory cell, IP, SP and IR value is a Word" (R8): a value of `WORD_BITS` bits. For SP
  the next line says more. -/
  registersFit : ∀ r, (s.readReg r).toNat < 2 ^ s.cfg.wordBits
  cellsFit : ∀ a, (s.mem.read a).toNat < 2 ^ s.cfg.wordBits
  ipFits : s.ip.toNat < 2 ^ s.cfg.wordBits
  irFits : s.ir.toNat < 2 ^ s.cfg.wordBits
  /-- "`0 <= SP <= STACK_TOP`" (R27). -/
  stackRange : s.sp.toNat ≤ s.cfg.stackTop.toNat
  /-- The depth counter "equals `STACK_TOP - SP`" (R34). -/
  depthCounts : s.depth = s.cfg.stackTop.toNat - s.sp.toNat
  /-- No more cycles have begun than the budget allows (R141). -/
  budgetKept : ∀ b, s.budget = some b → s.cycles ≤ b

/-- The ends that R211 calls fatal. `Halt` is the normal end and `Incomplete` the "soft-fatal" one. -/
def HaltReason.fatal : HaltReason → Bool
  | .halt => false
  | .incomplete => false
  | .stackOverflow => true
  | .stackUnderflow => true
  | .divideByZero => true
  | .illegalOpcode => true
  | .fetchOutOfRange => true
  | .loadOutOfRange => true
  | .storeOutOfRange => true

/-- The run has ended (R32). -/
def State.hasHalted (s : State) : Prop :=
  s.status ≠ .running

/-- A cycle begins in `s` and fetches: the core is running, its budget is not spent and IP is in range
(R141, R142). -/
def State.canFetch (s : State) : Prop :=
  s.status = .running ∧ s.budget ≠ some s.cycles ∧ s.ip.toNat < s.cfg.memWords

/-- The state in which the instruction at IP executes: the cycle is counted, IR holds the fetched word and
IP is one further (R142, R145). -/
def State.afterFetch (s : State) : State :=
  { s with cycles := s.cycles + 1, ir := s.mem.read s.ip.toNat, ip := s.cfg.trunc (s.ip + 1) }

/-- `t` is `s` but for the register `rd`. -/
def State.OnlyRegister (s t : State) (rd : RegIdx) : Prop :=
  t = { s with reg := t.reg } ∧ ∀ r, r ≠ rd → t.readReg r = s.readReg r

/-- `t` is `s` but for the register `rd` and the four flags. -/
def State.OnlyRegisterAndFlags (s t : State) (rd : RegIdx) : Prop :=
  t = { s with reg := t.reg, flags := t.flags } ∧ ∀ r, r ≠ rd → t.readReg r = s.readReg r

/-- `t` has the memory of `s` but for the word at address `a`, which is `v`; and it keeps every byte of the
list that is not one of that word's two. -/
def State.OnlyWord (s t : State) (a : Nat) (v : Word) : Prop :=
  t.mem.read a = v ∧ (∀ b, b ≠ a → t.mem.read b = s.mem.read b) ∧
    ∀ k, k ≠ 2 * a → k ≠ 2 * a + 1 → t.mem.getByte k = s.mem.getByte k

/-- The register an instruction may write (R21). -/
def destination : Instr → Option RegIdx
  | .nop => none
  | .mov rd _ => some rd
  | .addImm rd _ => some rd
  | .addReg rd _ => some rd
  | .subImm rd _ => some rd
  | .subReg rd _ => some rd
  | .and rd _ => some rd
  | .or rd _ => some rd
  | .mul rd _ => some rd
  | .div rd _ => some rd
  | .jmp _ => none
  | .jz _ => none
  | .call _ => none
  | .ret => none
  | .halt => none
  | .load rd _ => some rd
  | .store _ _ => none
  | .illegal => none

/-- The instructions that invoke the ALU and so write the flags (R29, R122). -/
def writesFlags : Instr → Bool
  | .nop => false
  | .mov _ _ => false
  | .addImm _ _ => true
  | .addReg _ _ => true
  | .subImm _ _ => true
  | .subReg _ _ => true
  | .and _ _ => true
  | .or _ _ => true
  | .mul _ _ => true
  | .div _ _ => true
  | .jmp _ => false
  | .jz _ => false
  | .call _ => false
  | .ret => false
  | .halt => false
  | .load _ _ => false
  | .store _ _ => false
  | .illegal => false

end Sys2Proof.Machine
end

