-- ==== Sys2Proof/Certificates/Slice0/Obligations.lean ====
section
/-! DEFINITION. The statements about the machine. Each docstring names the rule of spec/ it comes after, and
the spec's decision (92_eei_decisions.md) or the log entry that a clause rests on. -/

open Sys2Proof Sys2Proof.Machine

/-! ### The codec and the decoder -/

/-- R73: the four fields of a word are its bits 15:12, 11:9, 8:6 and 5:0. -/
def Obligations.FieldsAreBitRanges : Prop :=
  ∀ (cfg : Config) (w : Word), cfg.SourceWidths →
    (unpack cfg w).op.toNat = w.toNat / 4096 ∧
    (unpack cfg w).r1.toNat = w.toNat / 512 % 8 ∧
    (unpack cfg w).r2.toNat = w.toNat / 64 % 8 ∧
    (unpack cfg w).imm.toNat = w.toNat % 64

/-- R72: packing masks integers of any size and sign to 4, 3, 3 and 6 bits and puts them in place. -/
def Obligations.PackMasksAnyIntegers : Prop :=
  ∀ (cfg : Config) (op r1 r2 imm : Int), cfg.SourceWidths →
    ((packInts cfg op r1 r2 imm).toNat : Int) =
      op % 16 * 4096 + r1 % 8 * 512 + r2 % 8 * 64 + imm % 64

/-- The round-trip laws (a), (b) and (c) of R75; (c) is marked there as the spec's own derivation. -/
def Obligations.CodecRoundTrips : Prop :=
  ∀ cfg : Config, cfg.SourceWidths →
    (∀ f : Fields, unpack cfg (pack cfg f) = f) ∧
    (∀ w : Word, pack cfg (unpack cfg w) = w) ∧
    ∀ op r1 r2 imm : Int,
      ((unpack cfg (packInts cfg op r1 r2 imm)).op.toNat : Int) = op % 16 ∧
      ((unpack cfg (packInts cfg op r1 r2 imm)).r1.toNat : Int) = r1 % 8 ∧
      ((unpack cfg (packInts cfg op r1 r2 imm)).r2.toNat : Int) = r2 % 8 ∧
      ((unpack cfg (packInts cfg op r1 r2 imm)).imm.toNat : Int) = imm % 64

/-- The decoder of R86 for every profile with the widths of R6: each opcode names its instruction, whatever
stands in the fields it ignores (R79 to R84). The selector's value is decision D2, opcode 15 is D14,
`EXTENDED` is D5, the ignored fields are D15. -/
def Obligations.DecoderFollowsOpcodeMap : Prop :=
  ∀ (cfg : Config) (r1 r2 : RegIdx) (imm : Imm), cfg.SourceWidths →
    decode cfg (pack cfg ⟨0, r1, r2, imm⟩) = .nop ∧
    decode cfg (pack cfg ⟨1, r1, r2, imm⟩) = .mov r1 imm ∧
    decode cfg (pack cfg ⟨2, r1, r2, imm⟩) =
      (if cfg.addOperandProfile = .immOnly ∨ r2 = cfg.immSelector then .addImm r1 imm else .addReg r1 r2) ∧
    decode cfg (pack cfg ⟨3, r1, r2, imm⟩) =
      (if cfg.addOperandProfile = .immOnly ∨ r2 = cfg.immSelector then .subImm r1 imm else .subReg r1 r2) ∧
    decode cfg (pack cfg ⟨4, r1, r2, imm⟩) = .and r1 r2 ∧
    decode cfg (pack cfg ⟨5, r1, r2, imm⟩) = .or r1 r2 ∧
    decode cfg (pack cfg ⟨6, r1, r2, imm⟩) = .mul r1 r2 ∧
    decode cfg (pack cfg ⟨7, r1, r2, imm⟩) = .div r1 r2 ∧
    decode cfg (pack cfg ⟨8, r1, r2, imm⟩) = .jmp imm ∧
    decode cfg (pack cfg ⟨9, r1, r2, imm⟩) = .jz imm ∧
    decode cfg (pack cfg ⟨10, r1, r2, imm⟩) = .call imm ∧
    decode cfg (pack cfg ⟨11, r1, r2, imm⟩) = .ret ∧
    decode cfg (pack cfg ⟨12, r1, r2, imm⟩) = .halt ∧
    decode cfg (pack cfg ⟨13, r1, r2, imm⟩) = (if cfg.extended = true then .load r1 r2 else .illegal) ∧
    decode cfg (pack cfg ⟨14, r1, r2, imm⟩) = (if cfg.extended = true then .store r1 r2 else .illegal) ∧
    decode cfg (pack cfg ⟨15, r1, r2, imm⟩) = .illegal

/-- Decoding the canonical word of a well-formed instruction gives it back, with every operand at every
value and under every valid profile (R86, R87, R94). -/
def Obligations.DecodeInvertsEncode : Prop :=
  ∀ (cfg : Config) (i : Instr), cfg.Valid → i.wellFormed cfg = true → decode cfg (encode cfg i) = i

/-- Every one of the 65,536 words decodes to a well-formed instruction, and its canonical word decodes to
the same instruction, under every valid profile (R74, R86, R87). -/
def Obligations.EveryWordDecodesWellFormed : Prop :=
  ∀ (cfg : Config) (w : Word), cfg.Valid →
    (decode cfg w).wellFormed cfg = true ∧ decode cfg (encode cfg (decode cfg w)) = decode cfg w

/-- Words written out in 42, 43, 44 and 95 of spec/ decode to the instructions they stand for there, one of
each family, in the canonical profile. The ADD word with a literal rests on the selector 7 (decision D2,
log 6), LOAD and STORE on `EXTENDED` (decision D5, log 6), the fields that NOP ignores on decision D15
(log 6), and the word with opcode 15 on decision D14 (log 9). -/
def Obligations.DecodesWrittenOutWords : Prop :=
  decode .canonical 0b0000111111111111#16 = .nop ∧
  decode .canonical 0b0001001000000101#16 = .mov 1 5 ∧
  decode .canonical 0b0010010111000001#16 = .addImm 2 1 ∧
  decode .canonical 0b0010100010000000#16 = .addReg 4 2 ∧
  decode .canonical 0b0011101011000000#16 = .subReg 5 3 ∧
  decode .canonical 0b0111011100000000#16 = .div 3 4 ∧
  decode .canonical 0b1001000000010001#16 = .jz 17 ∧
  decode .canonical 0b1101011010000000#16 = .load 3 2 ∧
  decode .canonical 0b1110000001000000#16 = .store 0 1 ∧
  decode .canonical 0b1111000100100011#16 = .illegal

/-! ### The ALU

The rules state the ALU, and the instructions that use it, for Words of 16 bits (R6, R8). -/

/-- The `out` column of the function table of R112 for its rows but x÷y, in exact integers. -/
def Obligations.AluOutputsFollowTable : Prop :=
  ∀ (cfg : Config) (x y : Word), cfg.wordBits = 16 →
    (alu cfg 0b101010#6 x y).out.toNat = 0 ∧
    (alu cfg 0b111111#6 x y).out.toNat = 1 ∧
    (alu cfg 0b111010#6 x y).out.toNat = 65535 ∧
    (alu cfg 0b001100#6 x y).out = x ∧
    (alu cfg 0b110000#6 x y).out = y ∧
    (alu cfg 0b001101#6 x y).out.toNat = 65535 - x.toNat ∧
    (alu cfg 0b110001#6 x y).out.toNat = 65535 - y.toNat ∧
    ((alu cfg 0b001111#6 x y).out.toNat : Int) = (0 - (x.toNat : Int)) % 65536 ∧
    ((alu cfg 0b110011#6 x y).out.toNat : Int) = (0 - (y.toNat : Int)) % 65536 ∧
    (alu cfg 0b011111#6 x y).out.toNat = (x.toNat + 1) % 65536 ∧
    (alu cfg 0b110111#6 x y).out.toNat = (y.toNat + 1) % 65536 ∧
    ((alu cfg 0b001110#6 x y).out.toNat : Int) = ((x.toNat : Int) - 1) % 65536 ∧
    ((alu cfg 0b110010#6 x y).out.toNat : Int) = ((y.toNat : Int) - 1) % 65536 ∧
    (alu cfg 0b000010#6 x y).out.toNat = (x.toNat + y.toNat) % 65536 ∧
    ((alu cfg 0b010011#6 x y).out.toNat : Int) = ((x.toNat : Int) - y.toNat) % 65536 ∧
    ((alu cfg 0b000111#6 x y).out.toNat : Int) = ((y.toNat : Int) - x.toNat) % 65536 ∧
    (∀ i, i < 16 → (alu cfg 0b000000#6 x y).out.getLsbD i = (x.getLsbD i && y.getLsbD i)) ∧
    (∀ i, i < 16 → (alu cfg 0b010101#6 x y).out.getLsbD i = (x.getLsbD i || y.getLsbD i)) ∧
    (alu cfg 0b111100#6 x y).out.toNat = x.toNat * y.toNat % 65536

/-- R112: exactly the 44 vectors outside the table are reported as undefined; they give 0, with `zr` alone
set (decision D30 for `ov` and `cy`). -/
def Obligations.UndefinedVectorsGiveZero : Prop :=
  ∀ (cfg : Config) (d : AluVector) (x y : Word),
    if d ∈ [0b101010#6, 0b111111#6, 0b111010#6, 0b001100#6, 0b110000#6, 0b001101#6, 0b110001#6,
        0b001111#6, 0b110011#6, 0b011111#6, 0b110111#6, 0b001110#6, 0b110010#6, 0b000010#6,
        0b010011#6, 0b000111#6, 0b000000#6, 0b010101#6, 0b111100#6, 0b111101#6]
    then (alu cfg d x y).undef = false
    else alu cfg d x y = { out := 0, zr := true, ng := false, ov := false, cy := false, undef := true }

/-- R113: `zr` and `ng` come from the output, for every vector and all operands. -/
def Obligations.ZeroAndNegativeFollowOutput : Prop :=
  ∀ (cfg : Config) (d : AluVector) (x y : Word), cfg.wordBits = 16 →
    ((alu cfg d x y).zr = true ↔ (alu cfg d x y).out = 0) ∧
    ((alu cfg d x y).ng = true ↔ (alu cfg d x y).out.getLsbD 15 = true)

/-- After R123, which the spec marks as derived: the preprocessing datapath gives the table's output on 18
rows, and a constant on the other two. -/
def Obligations.DatapathGivesTheTable : Prop :=
  ∀ (cfg : Config) (x y : Word), cfg.wordBits = 16 →
    (∀ d ∈ [0b101010#6, 0b111111#6, 0b111010#6, 0b001100#6, 0b110000#6, 0b001101#6, 0b110001#6,
        0b001111#6, 0b110011#6, 0b011111#6, 0b110111#6, 0b001110#6, 0b110010#6, 0b000010#6,
        0b010011#6, 0b000111#6, 0b000000#6, 0b010101#6], (alu cfg d x y).out = datapath d x y) ∧
    datapath 0b111100#6 x y = 0xFFFF#16 ∧ datapath 0b111101#6 x y = 0x0000#16

/-- R115 for every row of the add kind (R114, decision D10 for the rows that ADD does not drive): the bits
and the carry are those of the ripple chain, and the overflow is the sign rule, with the equivalences that
R115 marks as derived. -/
def Obligations.AdditionIsTheCarryChain : Prop :=
  ∀ (cfg : Config) (d : AluVector) (x y a b : Word), cfg.wordBits = 16 →
    (AluOp.ofVector d).kind x y = .add a b →
    (∀ i, i < 16 → (alu cfg d x y).out.getLsbD i = ((a.getLsbD i ^^ b.getLsbD i) ^^ carryChain a b i)) ∧
    (alu cfg d x y).cy = carryChain a b 16 ∧
    ((alu cfg d x y).cy = true ↔ 65535 < a.toNat + b.toNat) ∧
    ((alu cfg d x y).ov = true ↔ a.msb = b.msb ∧ (alu cfg d x y).out.msb ≠ a.msb) ∧
    (alu cfg d x y).ov = (carryChain a b 16 ^^ carryChain a b 15)

/-- R116 for every row of the sub kind (decision D10): the difference, the sign-mismatch overflow, and the
carry by either convention; under `Borrow` it is the carry out of the chain `~a + b`. -/
def Obligations.SubtractionBorrows : Prop :=
  ∀ (cfg : Config) (d : AluVector) (x y a b : Word), cfg.wordBits = 16 →
    (AluOp.ofVector d).kind x y = .sub a b →
    ((alu cfg d x y).out.toNat : Int) = ((a.toNat : Int) - b.toNat) % 65536 ∧
    ((alu cfg d x y).ov = true ↔ a.msb ≠ b.msb ∧ (alu cfg d x y).out.msb ≠ a.msb) ∧
    ((alu cfg d x y).cy = true ↔
      if cfg.subCarryConvention = .borrow then a.toNat < b.toNat else b.toNat ≤ a.toNat) ∧
    (alu cfg d x y).cy =
      (if cfg.subCarryConvention = .borrow then carryChain (~~~a) b 16 else !carryChain (~~~a) b 16)

/-- "overflow is true signed-overflow" (R115, R116): `ov` of an add or sub row says that the exact signed
result does not fit in 16 bits. -/
def Obligations.OverflowIsExactSignedOverflow : Prop :=
  ∀ (cfg : Config) (d : AluVector) (x y a b : Word), cfg.wordBits = 16 →
    ((AluOp.ofVector d).kind x y = .add a b →
      ((alu cfg d x y).ov = true ↔ a.toInt + b.toInt < -32768 ∨ 32767 < a.toInt + b.toInt)) ∧
    ((AluOp.ofVector d).kind x y = .sub a b →
      ((alu cfg d x y).ov = true ↔ a.toInt - b.toInt < -32768 ∨ 32767 < a.toInt - b.toInt))

/-- R118 (decision D12): the low 16 bits of the product, and `ov = cy` when the exact product does not fit,
under either signedness. -/
def Obligations.ProductAndItsFlags : Prop :=
  ∀ (cfg : Config) (x y : Word), cfg.wordBits = 16 →
    (alu cfg 0b111100#6 x y).out.toNat = x.toNat * y.toNat % 65536 ∧
    (alu cfg 0b111100#6 x y).ov = (alu cfg 0b111100#6 x y).cy ∧
    ((alu cfg 0b111100#6 x y).cy = true ↔
      if cfg.mulOverflowSignedness = .unsigned then 65535 < x.toNat * y.toNat
      else x.toInt * y.toInt < -32768 ∨ 32767 < x.toInt * y.toInt)

/-- R119 and R120 (decisions D10 and D11): the quotient of the ALU and its flags. -/
def Obligations.QuotientAndItsFlags : Prop :=
  ∀ (cfg : Config) (x y : Word), cfg.wordBits = 16 →
    (alu cfg 0b111101#6 x y).cy = false ∧
    (y = 0 → (alu cfg 0b111101#6 x y).out = 0 ∧ (alu cfg 0b111101#6 x y).ov = true) ∧
    (y ≠ 0 → cfg.divSignedness = .unsigned →
      (alu cfg 0b111101#6 x y).out.toNat = x.toNat / y.toNat ∧ (alu cfg 0b111101#6 x y).ov = false) ∧
    (y ≠ 0 → cfg.divSignedness = .signed → x = 0x8000#16 ∧ y = 0xFFFF#16 →
      (alu cfg 0b111101#6 x y).out = 0x8000#16 ∧ (alu cfg 0b111101#6 x y).ov = true) ∧
    (y ≠ 0 → cfg.divSignedness = .signed → ¬(x = 0x8000#16 ∧ y = 0xFFFF#16) →
      (alu cfg 0b111101#6 x y).out.toInt = x.toInt.tdiv y.toInt ∧ (alu cfg 0b111101#6 x y).ov = false)

/-! ### What each instruction does, and what it leaves unchanged -/

/-- R160: NOP leaves every field as the fetch left it. -/
def Obligations.NopChangesNothing : Prop :=
  ∀ s : State, exec .nop s = .next s

/-- R161: MOV writes the zero-extended literal to `rd` and changes nothing else (the flags: decision D8). -/
def Obligations.MovWritesItsLiteral : Prop :=
  ∀ (rd : RegIdx) (imm : Imm) (s : State), ∃ t, exec (.mov rd imm) s = .next t ∧
    s.OnlyRegister t rd ∧ (t.readReg rd).toNat = imm.toNat

/-- R163, immediate form: the sum with the literal mod 2^16, the four flags of the ALU (R113, R115), and
nothing else. -/
def Obligations.AddImmAddsItsLiteral : Prop :=
  ∀ (rd : RegIdx) (imm : Imm) (s : State), s.cfg.wordBits = 16 → ∃ t, exec (.addImm rd imm) s = .next t ∧
    s.OnlyRegisterAndFlags t rd ∧
    (t.readReg rd).toNat = ((s.readReg rd).toNat + imm.toNat) % 65536 ∧
    (t.flags.zr = true ↔ t.readReg rd = 0) ∧ (t.flags.ng = true ↔ (t.readReg rd).msb = true) ∧
    (t.flags.ov = true ↔ (s.readReg rd).msb = false ∧ (t.readReg rd).msb = true) ∧
    (t.flags.cy = true ↔ 65535 < (s.readReg rd).toNat + imm.toNat)

/-- R163, register form: the sum of two registers mod 2^16, the four flags of the ALU (R113, R115), and
nothing else; `rs` may be `rd`. -/
def Obligations.AddRegAddsTwoRegisters : Prop :=
  ∀ (rd rs : RegIdx) (s : State), s.cfg.wordBits = 16 → ∃ t, exec (.addReg rd rs) s = .next t ∧
    s.OnlyRegisterAndFlags t rd ∧
    (t.readReg rd).toNat = ((s.readReg rd).toNat + (s.readReg rs).toNat) % 65536 ∧
    (t.flags.zr = true ↔ t.readReg rd = 0) ∧ (t.flags.ng = true ↔ (t.readReg rd).msb = true) ∧
    (t.flags.ov = true ↔
      (s.readReg rd).msb = (s.readReg rs).msb ∧ (t.readReg rd).msb ≠ (s.readReg rd).msb) ∧
    (t.flags.cy = true ↔ 65535 < (s.readReg rd).toNat + (s.readReg rs).toNat)

/-- R164, immediate form: the difference with the literal mod 2^16, the four flags of the ALU (R113, R116;
`cy` is decision D10), and nothing else. -/
def Obligations.SubImmSubtractsItsLiteral : Prop :=
  ∀ (rd : RegIdx) (imm : Imm) (s : State), s.cfg.wordBits = 16 → ∃ t, exec (.subImm rd imm) s = .next t ∧
    s.OnlyRegisterAndFlags t rd ∧
    ((t.readReg rd).toNat : Int) = ((s.readReg rd).toNat - (imm.toNat : Int)) % 65536 ∧
    (t.flags.zr = true ↔ t.readReg rd = 0) ∧ (t.flags.ng = true ↔ (t.readReg rd).msb = true) ∧
    (t.flags.ov = true ↔ (s.readReg rd).msb = true ∧ (t.readReg rd).msb = false) ∧
    (t.flags.cy = true ↔ if s.cfg.subCarryConvention = .borrow
      then (s.readReg rd).toNat < imm.toNat else imm.toNat ≤ (s.readReg rd).toNat)

/-- R164, register form: the difference of two registers mod 2^16, the four flags of the ALU (R113, R116;
`cy` is decision D10), and nothing else; `rs` may be `rd`. -/
def Obligations.SubRegSubtractsTwoRegisters : Prop :=
  ∀ (rd rs : RegIdx) (s : State), s.cfg.wordBits = 16 → ∃ t, exec (.subReg rd rs) s = .next t ∧
    s.OnlyRegisterAndFlags t rd ∧
    ((t.readReg rd).toNat : Int) = ((s.readReg rd).toNat - ((s.readReg rs).toNat : Int)) % 65536 ∧
    (t.flags.zr = true ↔ t.readReg rd = 0) ∧ (t.flags.ng = true ↔ (t.readReg rd).msb = true) ∧
    (t.flags.ov = true ↔
      (s.readReg rd).msb ≠ (s.readReg rs).msb ∧ (t.readReg rd).msb ≠ (s.readReg rd).msb) ∧
    (t.flags.cy = true ↔ if s.cfg.subCarryConvention = .borrow
      then (s.readReg rd).toNat < (s.readReg rs).toNat else (s.readReg rs).toNat ≤ (s.readReg rd).toNat)

/-- R165 and R166: AND and OR work bit by bit on two registers; `zr` and `ng` come from the result, `ov` and
`cy` are cleared (decision D9), and nothing else changes. -/
def Obligations.AndOrWorkBitwise : Prop :=
  ∀ (rd rs : RegIdx) (s : State), s.cfg.wordBits = 16 →
    (∃ t, exec (.and rd rs) s = .next t ∧ s.OnlyRegisterAndFlags t rd ∧
      (∀ i, i < 16 → (t.readReg rd).getLsbD i = ((s.readReg rd).getLsbD i && (s.readReg rs).getLsbD i)) ∧
      (t.flags.zr = true ↔ t.readReg rd = 0) ∧ (t.flags.ng = true ↔ (t.readReg rd).msb = true) ∧
      t.flags.ov = false ∧ t.flags.cy = false) ∧
    (∃ t, exec (.or rd rs) s = .next t ∧ s.OnlyRegisterAndFlags t rd ∧
      (∀ i, i < 16 → (t.readReg rd).getLsbD i = ((s.readReg rd).getLsbD i || (s.readReg rs).getLsbD i)) ∧
      (t.flags.zr = true ↔ t.readReg rd = 0) ∧ (t.flags.ng = true ↔ (t.readReg rd).msb = true) ∧
      t.flags.ov = false ∧ t.flags.cy = false)

/-- R167 (decisions D7 and D12): MUL keeps the low 16 bits of the product, sets `ov = cy` when the exact
product does not fit, and changes nothing else. -/
def Obligations.MulKeepsLowHalf : Prop :=
  ∀ (rd rs : RegIdx) (s : State), s.cfg.wordBits = 16 → ∃ t, exec (.mul rd rs) s = .next t ∧
    s.OnlyRegisterAndFlags t rd ∧
    (t.readReg rd).toNat = (s.readReg rd).toNat * (s.readReg rs).toNat % 65536 ∧
    (t.flags.zr = true ↔ t.readReg rd = 0) ∧ (t.flags.ng = true ↔ (t.readReg rd).msb = true) ∧
    t.flags.ov = t.flags.cy ∧
    (t.flags.cy = true ↔ if s.cfg.mulOverflowSignedness = .unsigned
      then 65535 < (s.readReg rd).toNat * (s.readReg rs).toNat
      else (s.readReg rd).toInt * (s.readReg rs).toInt < -32768 ∨
        32767 < (s.readReg rd).toInt * (s.readReg rs).toInt)

/-- R168 with a divisor that is not 0 (decisions D7, D10, D11): the quotient, unsigned and rounded down or
signed and truncated, with its flags, and nothing else. -/
def Obligations.DivDividesByNonzero : Prop :=
  ∀ (rd rs : RegIdx) (s : State), s.cfg.wordBits = 16 → s.readReg rs ≠ 0 → ∃ t, exec (.div rd rs) s = .next t ∧
    s.OnlyRegisterAndFlags t rd ∧
    (s.cfg.divSignedness = .unsigned →
      (t.readReg rd).toNat = (s.readReg rd).toNat / (s.readReg rs).toNat) ∧
    (s.cfg.divSignedness = .signed →
      t.readReg rd = BitVec.ofInt 16 ((s.readReg rd).toInt.tdiv (s.readReg rs).toInt)) ∧
    (t.flags.zr = true ↔ t.readReg rd = 0) ∧ (t.flags.ng = true ↔ (t.readReg rd).msb = true) ∧
    (t.flags.ov = true ↔ s.cfg.divSignedness = .signed ∧ s.readReg rd = 0x8000#16 ∧
      s.readReg rs = 0xFFFF#16) ∧
    t.flags.cy = false

/-- R168 and R215 with the divisor 0: under `Fatal` the run ends in `DivideByZero` with neither the register
nor a flag written (decision D13); under `Continue` the register is 0, the flags are `zr` and `ov`, and
the core goes on. -/
def Obligations.DivByZeroFollowsPolicy : Prop :=
  ∀ (rd rs : RegIdx) (s : State), s.readReg rs = 0 →
    (s.cfg.divZeroPolicy = .fatal →
      exec (.div rd rs) s = .next { s with status := .halted .divideByZero }) ∧
    (s.cfg.divZeroPolicy = .flaggedContinue → ∃ t, exec (.div rd rs) s = .next t ∧
      s.OnlyRegisterAndFlags t rd ∧ t.readReg rd = 0 ∧
      t.flags = { zr := true, ng := false, ov := true, cy := false })

/-- R180: JMP moves IP to the zero-extended literal and changes nothing else. -/
def Obligations.JmpGoesToItsTarget : Prop :=
  ∀ (target : Imm) (s : State), ∃ t, exec (.jmp target) s = .next t ∧
    t = { s with ip := t.ip } ∧ t.ip.toNat = target.toNat

/-- R181: JZ moves IP to the literal if the latched `zr` is set and leaves it past the JZ otherwise; it
changes nothing else, the flags included. -/
def Obligations.JzFollowsLatchedZero : Prop :=
  ∀ (target : Imm) (s : State), ∃ t, exec (.jz target) s = .next t ∧
    t = { s with ip := t.ip } ∧ t.ip.toNat = (if s.flags.zr = true then target.toNat else s.ip.toNat)

/-- R182: CALL writes the return address to `memory[SP]`, moves SP down by one, counts the depth and jumps;
it writes no other word, register or flag and emits nothing (R60, decision D19). The slot is in memory in
every state that meets the invariant (R27). -/
def Obligations.CallPushesAndJumps : Prop :=
  ∀ (target : Imm) (s : State), s.sp ≠ 0 → s.sp.toNat < s.cfg.memWords →
    ∃ t, exec (.call target) s = .next t ∧
      t = { s with mem := t.mem, sp := t.sp, ip := t.ip, depth := s.depth + 1 } ∧
      s.OnlyWord t s.sp.toNat s.ip ∧ t.sp.toNat + 1 = s.sp.toNat ∧ t.ip.toNat = target.toNat

/-- R213: CALL with `SP == 0` ends the run in `StackOverflow`; nothing is pushed and SP stays 0. -/
def Obligations.CallOverflowsAtZero : Prop :=
  ∀ (target : Imm) (s : State), s.sp = 0 →
    exec (.call target) s = .next { s with status := .halted .stackOverflow }

/-- R183: RET moves SP up by one, loads IP from the word there and counts the depth down (a natural number,
log 13); it writes no memory, register or flag. The slot is in memory in every state that meets the
invariant (R27). -/
def Obligations.RetPopsReturnAddress : Prop :=
  ∀ s : State, s.sp.toNat < s.cfg.stackTop.toNat → s.sp.toNat + 1 < s.cfg.memWords →
    ∃ t, exec .ret s = .next t ∧
      t = { s with sp := t.sp, ip := t.ip, depth := s.depth - 1 } ∧
      t.sp.toNat = s.sp.toNat + 1 ∧ t.ip = s.mem.read (s.sp.toNat + 1)

/-- R214: RET with `SP >= STACK_TOP` ends the run in `StackUnderflow`; SP is not changed. -/
def Obligations.RetUnderflowsAtTop : Prop :=
  ∀ s : State, s.cfg.stackTop.toNat ≤ s.sp.toNat →
    exec .ret s = .next { s with status := .halted .stackUnderflow }

/-- R184: HALT ends the run in `Halt` and changes nothing else. -/
def Obligations.HaltEndsTheRun : Prop :=
  ∀ s : State, exec .halt s = .next { s with status := .halted .halt }

/-- R83, R84 and R217 (decision D14): a word whose opcode is not in the table ends the run in
`IllegalOpcode`; that is its whole effect. -/
def Obligations.IllegalOpcodeEndsTheRun : Prop :=
  ∀ s : State, exec .illegal s = .next { s with status := .halted .illegalOpcode }

/-- R201 (decision D6): LOAD reads the word that `ra` addresses into `rd` and changes nothing else; `ra` may
be `rd`. -/
def Obligations.LoadReadsAddressedWord : Prop :=
  ∀ (rd ra : RegIdx) (s : State), (s.readReg ra).toNat < s.cfg.memWords →
    ∃ t, exec (.load rd ra) s = .next t ∧ s.OnlyRegister t rd ∧
      t.readReg rd = s.mem.read (s.readReg ra).toNat

/-- R200 away from the output address: STORE writes the addressed word and changes nothing else. -/
def Obligations.StoreWritesAddressedWord : Prop :=
  ∀ (rs ra : RegIdx) (s : State), (s.readReg ra).toNat < s.cfg.memWords →
    s.readReg ra ≠ s.cfg.mmioOutAddr →
    ∃ t, exec (.store rs ra) s = .next t ∧ t = { s with mem := t.mem } ∧
      s.OnlyWord t (s.readReg ra).toNat (s.readReg rs)

/-- R58 and R67: a STORE to the output address writes the word and appends exactly its low 8 bits to the
output, in the same cycle; no other execution changes the output. The address is 32 in the canonical
profile. -/
def Obligations.StoreToPortEmitsLowByte : Prop :=
  Config.canonical.mmioOutAddr.toNat = 32 ∧
  (∀ (rs ra : RegIdx) (s : State), (s.readReg ra).toNat < s.cfg.memWords →
    s.readReg ra = s.cfg.mmioOutAddr →
    ∃ t c, exec (.store rs ra) s = .next t ∧ t = { s with mem := t.mem, out := s.out ++ [c] } ∧
      c.toNat = (s.readReg rs).toNat % 256 ∧ s.OnlyWord t (s.readReg ra).toNat (s.readReg rs)) ∧
  ∀ (i : Instr) (s t : State), exec i s = .next t → t.out ≠ s.out →
    ∃ rs ra, i = .store rs ra ∧ s.readReg ra = s.cfg.mmioOutAddr

/-- R219 (decision D17): a LOAD or STORE at an address of `MEM_WORDS` or more ends the run in its own
condition, with no register, word or character written. -/
def Obligations.OutOfRangeAccessesEndTheRun : Prop :=
  ∀ (r ra : RegIdx) (s : State), s.cfg.memWords ≤ (s.readReg ra).toNat →
    exec (.load r ra) s = .next { s with status := .halted .loadOutOfRange } ∧
    exec (.store r ra) s = .next { s with status := .halted .storeOutOfRange }

/-! ### The cycle and the run -/

/-- R142 to R146: when the core is running, its budget is not spent and the word at IP decodes to the
instruction `i`, a step is `exec i` in the state with the cycle counted, IR loaded and IP one further. -/
def Obligations.StepRunsDecodedInstruction : Prop :=
  ∀ (s : State) (i : Instr), s.canFetch → decode s.cfg (s.mem.read s.ip.toNat) = i →
    i.wellFormed s.cfg = true → step s = exec i s.afterFetch

/-- After R148: no step is taken from a `Halted` state, and the host's run does not change it. That the
model answers the fault `halted` is its own choice (log 11). -/
def Obligations.HaltedIsTerminal : Prop :=
  ∀ (s : State) (c : HaltReason), s.status = .halted c →
    step s = .fault (.halted c) ∧ (∀ n, runFor n s = s) ∧ ∀ b, run b s = s

/-- R141 (decision D23): when the cycles equal the budget the run ends in `Incomplete` before the fetch, and
only the status changes. -/
def Obligations.SpentBudgetEndsTheRun : Prop :=
  ∀ s : State, s.status = .running → s.budget = some s.cycles →
    step s = .next { s with status := .halted .incomplete }

/-- R142 and R218 (decision D16): a fetch outside memory ends the run in `FetchOutOfRange`; the cycle is
counted, and IP and IR are unchanged. -/
def Obligations.FetchOutsideMemoryEndsTheRun : Prop :=
  ∀ s : State, s.status = .running → s.budget ≠ some s.cycles → s.cfg.memWords ≤ s.ip.toNat →
    step s = .next { s with cycles := s.cycles + 1, status := .halted .fetchOutOfRange }

/-- After R221, which the spec marks as derived: a fatal condition that an instruction raises leaves the
state that its fetch left, but for the status. -/
def Obligations.FatalConditionsArePrecise : Prop :=
  ∀ (s t : State) (c : HaltReason), s.canFetch → step s = .next t → t.status = .halted c →
    c.fatal = true → t = { s.afterFetch with status := .halted c }

/-- R8, R27, R34, R56 and R141 together: every step keeps the invariant, from any state that meets it. -/
def Obligations.StepKeepsInvariant : Prop :=
  ∀ s t : State, s.Inv → step s = .next t → t.Inv

/-- The state after reset meets the invariant. -/
def Obligations.ResetMeetsInvariant : Prop :=
  State.reset.Inv

/-- R27 and R56: a running core that meets the invariant always takes a step to a next state. -/
def Obligations.RunningCoreAlwaysSteps : Prop :=
  ∀ s : State, s.Inv → s.status = .running → ∃ t, step s = .next t

/-- After R147, whose termination the spec marks as derived: from a state that meets the invariant, the loop
with budget `b` halts after at most the cycles that are left plus one budget check, and so the host's
`run(b)` returns a halted state. -/
def Obligations.EveryRunEnds : Prop :=
  (∀ (s : State) (b : Nat), s.Inv → s.budget = some b →
    (runFor (b - s.cycles + 1) s).hasHalted ∧ (runFor (b - s.cycles + 1) s).cycles ≤ b) ∧
  ∀ (s : State) (b : Nat), s.Inv → s.cycles ≤ b → (run b s).hasHalted ∧ (run b s).cycles ≤ b

/-- The reset values of R241. The source states the status, IP and SP; the other values are the spec's
decisions D18, D23, D24 and D31 (log 5 and 10). -/
def Obligations.ResetLeavesListedValues : Prop :=
  State.reset.status = .running ∧ State.reset.ip.toNat = 0 ∧ State.reset.sp.toNat = 399 ∧
  (∀ r, State.reset.readReg r = 0) ∧ State.reset.ir = 0 ∧
  State.reset.flags = { zr := false, ng := false, ov := false, cy := false } ∧
  (∀ a, State.reset.mem.read a = 0) ∧
  State.reset.cycles = 0 ∧ State.reset.depth = 0 ∧ State.reset.out = []

/-- R240 to R242 and R101 (decision D18): `load_program` puts word `i` at address `i`, zero elsewhere, and
every other field at its reset value; a program longer than memory is refused. -/
def Obligations.LoadProgramPlacesItsWords : Prop :=
  ∀ (cfg : Config) (ws : List Word),
    (ws.length ≤ cfg.memWords → ∃ s, loadProgram cfg ws = .next s ∧
      s = { State.initial cfg [] with mem := s.mem } ∧
      (∀ (i : Nat) (h : i < ws.length), s.mem.read i = ws[i]) ∧
      ∀ a, ws.length ≤ a → s.mem.read a = 0) ∧
    (cfg.memWords < ws.length → loadProgram cfg ws = .refused .programTooLong)

/-! ### Rules about the whole machine -/

/-- After R21, which the spec marks as derived: no instruction writes a register but its destination. -/
def Obligations.OnlyDestinationRegisterChanges : Prop :=
  ∀ (i : Instr) (s t : State) (r : RegIdx), exec i s = .next t → t.readReg r ≠ s.readReg r →
    destination i = some r

/-- R29 (decisions D8 and D9): only ADD, SUB, AND, OR, MUL and DIV write the flags. -/
def Obligations.OnlyAluInstructionsWriteFlags : Prop :=
  ∀ (i : Instr) (s t : State), exec i s = .next t → t.flags ≠ s.flags → writesFlags i = true

/-- After R51, which the spec marks as derived: only STORE and CALL write memory, each one word at the
address its rule gives. -/
def Obligations.OnlyStoreAndCallWriteMemory : Prop :=
  ∀ (i : Instr) (s t : State), exec i s = .next t →
    t.mem = s.mem ∨
    (∃ rs ra, i = .store rs ra ∧ s.OnlyWord t (s.readReg ra).toNat (s.readReg rs)) ∨
    (∃ target, i = .call target ∧ s.OnlyWord t s.sp.toNat s.ip)

/-- R25, R26, R33 and R34: the execute phase never changes IR, the cycle count or the run's parameters, and
only CALL and RET move SP and the depth. -/
def Obligations.OnlyCallAndRetMoveTheStack : Prop :=
  ∀ (i : Instr) (s t : State), exec i s = .next t →
    t.ir = s.ir ∧ t.cycles = s.cycles ∧ t.cfg = s.cfg ∧ t.budget = s.budget ∧
    ((t.sp = s.sp ∧ t.depth = s.depth) ∨ i = .ret ∨ ∃ target, i = .call target)

/-- After R23, which the spec marks as derived: only JMP, JZ, CALL and RET leave IP anywhere but at the next
address. -/
def Obligations.OnlyControlTransfersMoveIp : Prop :=
  ∀ (i : Instr) (s t : State), exec i s = .next t → t.ip ≠ s.ip →
    i = .ret ∨ ∃ target, i = .jmp target ∨ i = .jz target ∨ i = .call target

/-- R145 (decision D23): a step counts one cycle, whatever it raises, unless the budget check ends the run. -/
def Obligations.EveryCycleIsCounted : Prop :=
  ∀ s t : State, step s = .next t →
    (s.budget ≠ some s.cycles ∧ t.cycles = s.cycles + 1) ∨
    (s.budget = some s.cycles ∧ t.cycles = s.cycles ∧ t.status = .halted .incomplete)

/-- R64 and R247 (decision D20): a word stored at the address of the next instruction is the instruction
executed next. -/
def Obligations.StoredWordIsExecutedNext : Prop :=
  ∀ (rs ra : RegIdx) (s t : State), s.status = .running → s.budget ≠ some s.cycles →
    s.readReg ra = s.ip → s.ip.toNat < s.cfg.memWords → exec (.store rs ra) s = .next t →
    step t = exec (decode s.cfg (s.readReg rs)) t.afterFetch

/-- After R185, which the spec marks as derived: a RET that finds SP and the stack slot as a CALL left them
goes to the instruction after the CALL and restores SP. -/
def Obligations.RetReturnsPastTheCall : Prop :=
  ∀ (target : Imm) (s t u : State), s.Inv → s.sp ≠ 0 → exec (.call target) s = .next t →
    u.cfg = t.cfg → u.sp = t.sp → u.mem.read s.sp.toNat = t.mem.read s.sp.toNat →
    ∃ v, exec .ret u = .next v ∧ v.ip = s.ip ∧ v.sp = s.sp

/-- A budget that is not reached changes nothing: a step without a budget is the step with any budget other
than the cycles so far. That `budget` may be absent is the model's choice (log 2). -/
def Obligations.UnreachedBudgetChangesNothing : Prop :=
  ∀ (s t : State) (b : Nat), s.budget = none → s.cycles ≠ b → step s = .next t →
    step { s with budget := some b } = .next { t with budget := some b }

/-! ### The assembler -/

/-- R94, R87 and R101: every word the assembler emits is the canonical word of the instruction it decodes
to, and word `i` of the listing has the index `i`. -/
def Obligations.AssembledWordsAreCanonical : Prop :=
  ∀ (cfg : Config) (policy : UnresolvedLabelPolicy) (text : List Char) (rows : List ListingRow),
    cfg.Valid →
    (assemble cfg policy text).listing = some rows →
    (∀ row ∈ rows, encode cfg (decode cfg row.word) = row.word) ∧
    rows.map ListingRow.index = List.range rows.length

/-- R89 and R90 (decision D27): when no error is reported, pass 1 counted exactly the instructions that pass
2 emitted, so that labels are instruction indices. -/
def Obligations.PassesCountTheSameInstructions : Prop :=
  ∀ (cfg : Config) (policy : UnresolvedLabelPolicy) (text : List Char),
    (assemble cfg policy text).errors = [] →
    (assemble cfg policy text).instructionCount = (pass1 cfg (sourceLines text)).count
end

