-- ==== Sys2Proof/Laws/Codec.lean ====
section
/-! SUPPORT. Where the fields of a word stand (R71), what the masks of a profile do, and that the codec keeps
the opcode field. -/

namespace Sys2Proof

/-! ### At the widths of R6 -/

theorem opPlace_eq {cfg : Config} (h : cfg.wordBits = 16) : opPlace cfg = 12 := by simp [opPlace, h]
theorem r1Place_eq {cfg : Config} (h : cfg.wordBits = 16) : r1Place cfg = 9 := by simp [r1Place, h]
theorem r2Place_eq {cfg : Config} (h : cfg.wordBits = 16) : r2Place cfg = 6 := by simp [r2Place, h]

/-- A Word of 16 bits is its own truncation. -/
theorem Config.trunc_eq_self {cfg : Config} (h : cfg.wordBits = 16) (v : Word) : cfg.trunc v = v := by
  simp [Config.trunc, h]

/-- An immediate of 6 bits is its own mask. -/
theorem Config.maskImm_eq_self {cfg : Config} (h : cfg.immBits = 6) (v : Imm) : cfg.maskImm v = v := by
  simp [Config.maskImm, h]

/-- With 8 registers every register field names one. -/
theorem Instr.registersExist_eq_true {cfg : Config} (h : cfg.nregs = 8) (i : Instr) :
    i.registersExist cfg = true := by
  simpa [Instr.registersExist, h] using fun r _ => r.isLt

/-! ### At every width -/

/-- A truncation is the value mod 2^`WORD_BITS`. -/
theorem Config.toNat_trunc {cfg : Config} (h : cfg.wordBits ≤ 16) (v : Word) :
    (cfg.trunc v).toNat = v.toNat % 2 ^ cfg.wordBits := by
  rw [Config.trunc, BitVec.toNat_setWidth_of_le h, BitVec.toNat_setWidth]

/-- Truncation leaves a value of `WORD_BITS` bits alone. -/
theorem Config.trunc_of_lt {cfg : Config} (h : cfg.wordBits ≤ 16) {v : Word}
    (hv : v.toNat < 2 ^ cfg.wordBits) : cfg.trunc v = v :=
  BitVec.eq_of_toNat_eq (by rw [cfg.toNat_trunc h, Nat.mod_eq_of_lt hv])

/-- A masked immediate is the value mod 2^`IMM_BITS`. -/
theorem Config.toNat_maskImm {cfg : Config} (h : cfg.immBits ≤ 6) (v : Imm) :
    (cfg.maskImm v).toNat = v.toNat % 2 ^ cfg.immBits := by
  rw [Config.maskImm, BitVec.toNat_setWidth_of_le h, BitVec.toNat_setWidth]

/-- The codec puts the opcode of the fields in the top four bits of the word. -/
theorem unpack_pack_op {cfg : Config} (h : cfg.Valid) (f : Fields) : (unpack cfg (pack cfg f)).op = f.op := by
  obtain ⟨_, _, h10, h16, _⟩ := h
  ext i hi
  simp only [unpack, pack, opPlace, r1Place, r2Place, Config.maskImm, BitVec.getElem_extractLsb',
    BitVec.getLsbD_or, BitVec.getLsbD_shiftLeft, BitVec.getLsbD_setWidth]
  rw [BitVec.getLsbD_of_ge f.r1 _ (by omega), BitVec.getLsbD_of_ge f.r2 _ (by omega),
    show cfg.wordBits - 4 + i - (cfg.wordBits - 4) = i by omega, BitVec.getLsbD_eq_getElem hi]
  have h6 : ¬ cfg.wordBits - 4 + i < 6 := by omega
  have hw : cfg.wordBits - 4 + i < 16 := by omega
  have hi' : i < 16 := by omega
  simp [h6, hw, hi']

end Sys2Proof
end

