-- ==== Sys2Proof/Laws/Flags.lean ====
section
/-! SUPPORT. What each flag says, as a fact about the operands: one lemma per flag computation. -/

namespace Sys2Proof.Machine

@[simp] theorem zeroFlag_iff (out : Word) : zeroFlag out = true ↔ out = 0 := by
  simp [zeroFlag]

@[simp] theorem negativeFlag_eq (out : Word) : negativeFlag out = out.msb := rfl

@[simp] theorem addCarry_iff (a b : Word) : addCarry a b = true ↔ 65535 < a.toNat + b.toNat :=
  decide_eq_true_iff

@[simp] theorem addOverflow_iff (a b out : Word) :
    addOverflow a b out = true ↔ a.msb = b.msb ∧ out.msb ≠ a.msb := by
  simp [addOverflow]

@[simp] theorem subCarry_iff (conv : SubCarryConvention) (a b : Word) :
    subCarry conv a b = true ↔ if conv = .borrow then a.toNat < b.toNat else b.toNat ≤ a.toNat := by
  cases conv <;> simp [subCarry]

@[simp] theorem subOverflow_iff (a b out : Word) :
    subOverflow a b out = true ↔ a.msb ≠ b.msb ∧ out.msb ≠ a.msb := by
  simp [subOverflow]

@[simp] theorem mulOverflow_iff (sign : Signedness) (x y : Word) :
    mulOverflow sign x y = true ↔
      if sign = .unsigned then 65535 < x.toNat * y.toNat
      else x.toInt * y.toInt < -32768 ∨ 32767 < x.toInt * y.toInt := by
  cases sign
  · exact decide_eq_true_iff
  · exact decide_eq_true_iff

@[simp] theorem divOverflow_iff (sign : Signedness) (x y : Word) :
    divOverflow sign x y = true ↔ y = 0 ∨ (sign = .signed ∧ x = 0x8000#16 ∧ y = 0xFFFF#16) := by
  cases sign
  · simp [divOverflow]
  · simp only [divOverflow, Bool.or_eq_true, Bool.and_eq_true, beq_iff_eq, true_and]
    exact Iff.rfl

/-! ### The ALU's answer, row by row of its interface -/

@[simp] theorem aluOf_out {w : Nat} (cfg : Config) (op : AluOp) (x y : BitVec w) :
    (aluOf cfg op x y).out = op.out cfg x y := rfl

@[simp] theorem aluOf_zr {w : Nat} (cfg : Config) (op : AluOp) (x y : BitVec w) :
    (aluOf cfg op x y).zr = zeroFlag (op.out cfg x y) := rfl

@[simp] theorem aluOf_ng {w : Nat} (cfg : Config) (op : AluOp) (x y : BitVec w) :
    (aluOf cfg op x y).ng = negativeFlag (op.out cfg x y) := rfl

@[simp] theorem aluOf_ov {w : Nat} (cfg : Config) (op : AluOp) (x y : BitVec w) :
    (aluOf cfg op x y).ov = overflowFlag cfg (op.out cfg x y) (op.kind x y) := rfl

@[simp] theorem aluOf_cy {w : Nat} (cfg : Config) (op : AluOp) (x y : BitVec w) :
    (aluOf cfg op x y).cy = carryFlag cfg (op.kind x y) := rfl

@[simp] theorem AluResult.flags_zr {w : Nat} (r : AluResult w) : r.flags.zr = r.zr := rfl
@[simp] theorem AluResult.flags_ng {w : Nat} (r : AluResult w) : r.flags.ng = r.ng := rfl
@[simp] theorem AluResult.flags_ov {w : Nat} (r : AluResult w) : r.flags.ov = r.ov := rfl
@[simp] theorem AluResult.flags_cy {w : Nat} (r : AluResult w) : r.flags.cy = r.cy := rfl

/-- With Words of 16 bits the ALU works on its operands as they are. -/
theorem alu_eq_aluOf {cfg : Config} (h : cfg.wordBits = 16) (d : AluVector) (x y : Word) :
    alu cfg d x y = aluOf cfg (AluOp.ofVector d) x y := by
  have same : ∀ (w : Nat), w = 16 →
      (aluOf cfg (AluOp.ofVector d) (x.setWidth w) (y.setWidth w)).toWord =
        aluOf cfg (AluOp.ofVector d) x y := by
    rintro w rfl
    simp [AluResult.toWord, aluOf]
  exact same _ h

/-- The ALU answers a Word of the profile. -/
theorem alu_out_lt {cfg : Config} (h : cfg.wordBits ≤ 16) (d : AluVector) (x y : Word) :
    (alu cfg d x y).out.toNat < 2 ^ cfg.wordBits := by
  rw [alu, AluResult.toWord, BitVec.toNat_setWidth_of_le h]
  exact BitVec.isLt _

end Sys2Proof.Machine
end

