-- ==== Sys2Proof/Laws/Memory.lean ====
section
/-! SUPPORT. The laws of memory: a read after a write, and the canonical form that every memory operation
keeps. -/

namespace Sys2Proof.Machine

@[simp] theorem Memory.getByte_nil (k : Nat) : Memory.getByte [] k = Memory.blank := rfl

@[simp] theorem Memory.getByte_cons (c : Host.Cell) (m : Memory) (k : Nat) :
    Memory.getByte (c :: m) k = if c.1 = k then c.2 else Memory.getByte m k := rfl

/-! ### Bytes -/

theorem Memory.getByte_filter_same (m : Memory) (k : Nat) :
    Memory.getByte (m.filter (fun c => c.1 != k)) k = Memory.blank := by
  induction m with
  | nil => rfl
  | cons c m ih =>
    by_cases h : c.1 = k
    · simp [h]; simpa using ih
    · simp [h]; simpa using ih

theorem Memory.getByte_filter_other (m : Memory) {k j : Nat} (h : j ≠ k) :
    Memory.getByte (m.filter (fun c => c.1 != k)) j = Memory.getByte m j := by
  induction m with
  | nil => rfl
  | cons c m ih =>
    by_cases hc : c.1 = k
    · have : c.1 ≠ j := fun e => h (e ▸ hc)
      simp [hc, h.symm]; simpa using ih
    · simp only [List.filter_cons, bne_iff_ne, ne_eq, hc, not_false_eq_true, if_true, Memory.getByte_cons]
      rw [ih]

theorem Memory.getByte_insert_same (c : Host.Cell) (m : Memory) (h : ∀ d ∈ m, d.1 ≠ c.1) :
    Memory.getByte (Memory.insert c m) c.1 = c.2 := by
  induction m with
  | nil => simp [Memory.insert]
  | cons d m ih =>
    unfold Memory.insert
    split
    · simp
    · simp [h d (by simp), ih (fun e he => h e (by simp [he]))]

theorem Memory.getByte_insert_other (c : Host.Cell) (m : Memory) {j : Nat} (h : j ≠ c.1) :
    Memory.getByte (Memory.insert c m) j = Memory.getByte m j := by
  induction m with
  | nil => simp [Memory.insert, h.symm]
  | cons d m ih =>
    unfold Memory.insert
    split
    · simp [h.symm]
    · simp [ih]

/-- Everything that writing a byte does to what is read. -/
theorem Memory.getByte_setByte (m : Memory) (k j : Nat) (b : Byte) :
    (m.setByte k b).getByte j = if j = k then b else m.getByte j := by
  by_cases hj : j = k
  · subst hj
    by_cases hb : b = Memory.blank
    · simp [Memory.setByte, hb, Memory.getByte_filter_same]
    · simp only [Memory.setByte, hb, if_false, if_true]
      exact Memory.getByte_insert_same (j, b) _ (by simp)
  · by_cases hb : b = Memory.blank
    · simp [Memory.setByte, hb, hj, Memory.getByte_filter_other m hj]
    · simp only [Memory.setByte, hb, hj, if_false]
      rw [Memory.getByte_insert_other (k, b) _ hj, Memory.getByte_filter_other m hj]

/-! ### Words -/

/-- The bytes that writing a word leaves alone. -/
theorem Memory.getByte_write_other (m : Memory) (a : Nat) (v : Word) {k : Nat} (h0 : k ≠ 2 * a)
    (h1 : k ≠ 2 * a + 1) : (m.write a v).getByte k = m.getByte k := by
  simp [Memory.write, Memory.getByte_setByte, h0, h1]

/-- Memory that lists nothing reads as zero everywhere. -/
@[simp] theorem Memory.read_nil (a : Nat) : Memory.read [] a = 0 := by
  simp [Memory.read, Memory.blank]

/-- A read after a write to the same word gives the value written. -/
@[simp] theorem Memory.read_write_same (m : Memory) (a : Nat) (v : Word) : (m.write a v).read a = v := by
  have halves : v.extractLsb' 8 8 ++ v.extractLsb' 0 8 = v := by
    rw [BitVec.extractLsb'_append_extractLsb'_eq_extractLsb' (by rfl)]; simp
  simpa [Memory.read, Memory.write, Memory.getByte_setByte] using halves

/-- A write leaves every other word alone. -/
theorem Memory.read_write_other (m : Memory) {a b : Nat} (v : Word) (h : b ≠ a) :
    (m.write a v).read b = m.read b := by
  unfold Memory.read
  rw [Memory.getByte_write_other m a v (by omega) (by omega),
    Memory.getByte_write_other m a v (by omega) (by omega)]

/-- Everything that writing a word does to what is read. -/
theorem Memory.read_write (m : Memory) (a b : Nat) (v : Word) :
    (m.write a v).read b = if b = a then v else m.read b := by
  split
  · next h => subst h; exact m.read_write_same b v
  · next h => exact m.read_write_other v h

/-- Placing words leaves the words below alone. -/
theorem Memory.read_place_below (ws : List Word) (m : Memory) {a b : Nat} (h : b < a) :
    (m.place a ws).read b = m.read b := by
  induction ws generalizing m a with
  | nil => rfl
  | cons w ws ih =>
    rw [Memory.place, ih (m.write a w) (by omega), m.read_write_other w (by omega)]

/-! ### The canonical form -/

theorem Memory.mem_insert (c : Host.Cell) (m : Memory) {d : Host.Cell} (h : d ∈ Memory.insert c m) :
    d = c ∨ d ∈ m := by
  induction m with
  | nil => simpa [Memory.insert] using h
  | cons e m ih =>
    unfold Memory.insert at h
    split at h
    · simpa using h
    · rcases List.mem_cons.mp h with rfl | h
      · simp
      · rcases ih h with rfl | h
        · simp
        · simp [h]

theorem Memory.wf_insert (c : Host.Cell) (m : Memory) (hm : m.wf) (hc : c.2 ≠ Memory.blank)
    (hk : ∀ d ∈ m, d.1 ≠ c.1) : (Memory.insert c m).wf := by
  refine ⟨?_, ?_⟩
  · induction m with
    | nil => simp [Memory.insert]
    | cons d m ih =>
      obtain ⟨hp, hv⟩ := hm
      rw [List.pairwise_cons] at hp
      unfold Memory.insert
      split
      · next hlt =>
        simp only [List.pairwise_cons, List.mem_cons]
        refine ⟨?_, hp⟩
        rintro e (rfl | he)
        · exact hlt
        · exact lt_trans hlt (hp.1 e he)
      · next hlt =>
        have hd : d.1 < c.1 := by
          have := hk d (by simp)
          omega
        rw [List.pairwise_cons]
        refine ⟨?_, ih ⟨hp.2, fun e he => hv e (by simp [he])⟩ (fun e he => hk e (by simp [he]))⟩
        intro e he
        rcases Memory.mem_insert c m he with rfl | he
        · exact hd
        · exact hp.1 e he
  · intro d hd
    rcases Memory.mem_insert c m hd with rfl | hd
    · exact hc
    · exact hm.2 d hd

theorem Memory.wf_setByte (m : Memory) (k : Nat) (b : Byte) (hm : m.wf) : (m.setByte k b).wf := by
  have hf : Memory.wf (m.filter (fun c => c.1 != k)) :=
    ⟨hm.1.filter _, fun c hc => hm.2 c (List.mem_filter.mp hc).1⟩
  unfold Memory.setByte
  by_cases hb : b = Memory.blank
  · simpa [hb] using hf
  · simp only [hb, if_false]
    exact Memory.wf_insert (k, b) _ hf hb (by simp)

/-- Writing a word keeps the canonical form. -/
theorem Memory.wf_write (m : Memory) (a : Nat) (v : Word) (hm : m.wf) : (m.write a v).wf :=
  Memory.wf_setByte _ _ _ (Memory.wf_setByte _ _ _ hm)

/-- Placing words keeps the canonical form. -/
theorem Memory.wf_place (ws : List Word) (m : Memory) (a : Nat) (hm : m.wf) : (m.place a ws).wf := by
  induction ws generalizing m a with
  | nil => exact hm
  | cons w ws ih => exact ih (m.write a w) (a + 1) (m.wf_write a w hm)

theorem Memory.mem_setByte (m : Memory) (k : Nat) (b : Byte) {c : Host.Cell} (h : c ∈ m.setByte k b) :
    c.1 = k ∨ c ∈ m := by
  unfold Memory.setByte at h
  by_cases hb : b = Memory.blank
  · simp only [hb, if_true] at h
    exact .inr (List.mem_filter.mp h).1
  · simp only [hb, if_false] at h
    rcases Memory.mem_insert _ _ h with rfl | h
    · exact .inl rfl
    · exact .inr (List.mem_filter.mp h).1

/-- Writing a word of memory lists nothing outside memory. -/
theorem Memory.within_write (n : Nat) (m : Memory) (a : Nat) (v : Word) (ha : a < n)
    (hm : m.Within n) : (m.write a v).Within n := by
  intro c hc
  rcases Memory.mem_setByte _ _ _ hc with h | h
  · omega
  · rcases Memory.mem_setByte _ _ _ h with h | h
    · omega
    · exact hm c h

end Sys2Proof.Machine
end

