-- ==== Sys2Proof/Laws/State.lean ====
section
/-! SUPPORT. Each field after each named update of the state: one lemma per field per update. -/

namespace Sys2Proof.Machine

variable (s : State)

/-! ### writeReg -/

@[simp] theorem State.writeReg_cfg (r : RegIdx) (v : Word) : (s.writeReg r v).cfg = s.cfg := rfl
@[simp] theorem State.writeReg_budget (r : RegIdx) (v : Word) : (s.writeReg r v).budget = s.budget := rfl
@[simp] theorem State.writeReg_reg (r : RegIdx) (v : Word) : (s.writeReg r v).reg = s.reg.set r.toNat v r.isLt := rfl
@[simp] theorem State.writeReg_ip (r : RegIdx) (v : Word) : (s.writeReg r v).ip = s.ip := rfl
@[simp] theorem State.writeReg_ir (r : RegIdx) (v : Word) : (s.writeReg r v).ir = s.ir := rfl
@[simp] theorem State.writeReg_sp (r : RegIdx) (v : Word) : (s.writeReg r v).sp = s.sp := rfl
@[simp] theorem State.writeReg_flags (r : RegIdx) (v : Word) : (s.writeReg r v).flags = s.flags := rfl
@[simp] theorem State.writeReg_mem (r : RegIdx) (v : Word) : (s.writeReg r v).mem = s.mem := rfl
@[simp] theorem State.writeReg_status (r : RegIdx) (v : Word) : (s.writeReg r v).status = s.status := rfl
@[simp] theorem State.writeReg_cycles (r : RegIdx) (v : Word) : (s.writeReg r v).cycles = s.cycles := rfl
@[simp] theorem State.writeReg_depth (r : RegIdx) (v : Word) : (s.writeReg r v).depth = s.depth := rfl
@[simp] theorem State.writeReg_out (r : RegIdx) (v : Word) : (s.writeReg r v).out = s.out := rfl

@[simp] theorem State.inRange_writeReg (r : RegIdx) (v : Word) (p : Word) : (s.writeReg r v).inRange p = s.inRange p := rfl
@[simp] theorem State.loadWord_writeReg (r : RegIdx) (v : Word) (p : Word) : (s.writeReg r v).loadWord p = s.loadWord p := rfl

/-! ### storeWord -/

@[simp] theorem State.storeWord_cfg (a v : Word) : (s.storeWord a v).cfg = s.cfg := rfl
@[simp] theorem State.storeWord_budget (a v : Word) : (s.storeWord a v).budget = s.budget := rfl
@[simp] theorem State.storeWord_reg (a v : Word) : (s.storeWord a v).reg = s.reg := rfl
@[simp] theorem State.storeWord_ip (a v : Word) : (s.storeWord a v).ip = s.ip := rfl
@[simp] theorem State.storeWord_ir (a v : Word) : (s.storeWord a v).ir = s.ir := rfl
@[simp] theorem State.storeWord_sp (a v : Word) : (s.storeWord a v).sp = s.sp := rfl
@[simp] theorem State.storeWord_flags (a v : Word) : (s.storeWord a v).flags = s.flags := rfl
@[simp] theorem State.storeWord_mem (a v : Word) : (s.storeWord a v).mem = s.mem.write a.toNat v := rfl
@[simp] theorem State.storeWord_status (a v : Word) : (s.storeWord a v).status = s.status := rfl
@[simp] theorem State.storeWord_cycles (a v : Word) : (s.storeWord a v).cycles = s.cycles := rfl
@[simp] theorem State.storeWord_depth (a v : Word) : (s.storeWord a v).depth = s.depth := rfl
@[simp] theorem State.storeWord_out (a v : Word) : (s.storeWord a v).out = s.out := rfl

@[simp] theorem State.readReg_storeWord (a v : Word) (q : RegIdx) : (s.storeWord a v).readReg q = s.readReg q := rfl
@[simp] theorem State.inRange_storeWord (a v : Word) (p : Word) : (s.storeWord a v).inRange p = s.inRange p := rfl

/-! ### latch -/

@[simp] theorem State.latch_cfg (f : Flags) : (s.latch f).cfg = s.cfg := rfl
@[simp] theorem State.latch_budget (f : Flags) : (s.latch f).budget = s.budget := rfl
@[simp] theorem State.latch_reg (f : Flags) : (s.latch f).reg = s.reg := rfl
@[simp] theorem State.latch_ip (f : Flags) : (s.latch f).ip = s.ip := rfl
@[simp] theorem State.latch_ir (f : Flags) : (s.latch f).ir = s.ir := rfl
@[simp] theorem State.latch_sp (f : Flags) : (s.latch f).sp = s.sp := rfl
@[simp] theorem State.latch_flags (f : Flags) : (s.latch f).flags = f := rfl
@[simp] theorem State.latch_mem (f : Flags) : (s.latch f).mem = s.mem := rfl
@[simp] theorem State.latch_status (f : Flags) : (s.latch f).status = s.status := rfl
@[simp] theorem State.latch_cycles (f : Flags) : (s.latch f).cycles = s.cycles := rfl
@[simp] theorem State.latch_depth (f : Flags) : (s.latch f).depth = s.depth := rfl
@[simp] theorem State.latch_out (f : Flags) : (s.latch f).out = s.out := rfl

@[simp] theorem State.readReg_latch (f : Flags) (q : RegIdx) : (s.latch f).readReg q = s.readReg q := rfl
@[simp] theorem State.inRange_latch (f : Flags) (p : Word) : (s.latch f).inRange p = s.inRange p := rfl
@[simp] theorem State.loadWord_latch (f : Flags) (p : Word) : (s.latch f).loadWord p = s.loadWord p := rfl

/-! ### jump -/

@[simp] theorem State.jump_cfg (a : Word) : (s.jump a).cfg = s.cfg := rfl
@[simp] theorem State.jump_budget (a : Word) : (s.jump a).budget = s.budget := rfl
@[simp] theorem State.jump_reg (a : Word) : (s.jump a).reg = s.reg := rfl
@[simp] theorem State.jump_ip (a : Word) : (s.jump a).ip = a := rfl
@[simp] theorem State.jump_ir (a : Word) : (s.jump a).ir = s.ir := rfl
@[simp] theorem State.jump_sp (a : Word) : (s.jump a).sp = s.sp := rfl
@[simp] theorem State.jump_flags (a : Word) : (s.jump a).flags = s.flags := rfl
@[simp] theorem State.jump_mem (a : Word) : (s.jump a).mem = s.mem := rfl
@[simp] theorem State.jump_status (a : Word) : (s.jump a).status = s.status := rfl
@[simp] theorem State.jump_cycles (a : Word) : (s.jump a).cycles = s.cycles := rfl
@[simp] theorem State.jump_depth (a : Word) : (s.jump a).depth = s.depth := rfl
@[simp] theorem State.jump_out (a : Word) : (s.jump a).out = s.out := rfl

@[simp] theorem State.readReg_jump (a : Word) (q : RegIdx) : (s.jump a).readReg q = s.readReg q := rfl
@[simp] theorem State.inRange_jump (a : Word) (p : Word) : (s.jump a).inRange p = s.inRange p := rfl
@[simp] theorem State.loadWord_jump (a : Word) (p : Word) : (s.jump a).loadWord p = s.loadWord p := rfl

/-! ### emit -/

@[simp] theorem State.emit_cfg (c : Byte) : (s.emit c).cfg = s.cfg := rfl
@[simp] theorem State.emit_budget (c : Byte) : (s.emit c).budget = s.budget := rfl
@[simp] theorem State.emit_reg (c : Byte) : (s.emit c).reg = s.reg := rfl
@[simp] theorem State.emit_ip (c : Byte) : (s.emit c).ip = s.ip := rfl
@[simp] theorem State.emit_ir (c : Byte) : (s.emit c).ir = s.ir := rfl
@[simp] theorem State.emit_sp (c : Byte) : (s.emit c).sp = s.sp := rfl
@[simp] theorem State.emit_flags (c : Byte) : (s.emit c).flags = s.flags := rfl
@[simp] theorem State.emit_mem (c : Byte) : (s.emit c).mem = s.mem := rfl
@[simp] theorem State.emit_status (c : Byte) : (s.emit c).status = s.status := rfl
@[simp] theorem State.emit_cycles (c : Byte) : (s.emit c).cycles = s.cycles := rfl
@[simp] theorem State.emit_depth (c : Byte) : (s.emit c).depth = s.depth := rfl
@[simp] theorem State.emit_out (c : Byte) : (s.emit c).out = s.out ++ [c] := rfl

@[simp] theorem State.readReg_emit (c : Byte) (q : RegIdx) : (s.emit c).readReg q = s.readReg q := rfl
@[simp] theorem State.inRange_emit (c : Byte) (p : Word) : (s.emit c).inRange p = s.inRange p := rfl
@[simp] theorem State.loadWord_emit (c : Byte) (p : Word) : (s.emit c).loadWord p = s.loadWord p := rfl

/-! ### pushed -/

@[simp] theorem State.pushed_cfg : (s.pushed).cfg = s.cfg := rfl
@[simp] theorem State.pushed_budget : (s.pushed).budget = s.budget := rfl
@[simp] theorem State.pushed_reg : (s.pushed).reg = s.reg := rfl
@[simp] theorem State.pushed_ip : (s.pushed).ip = s.ip := rfl
@[simp] theorem State.pushed_ir : (s.pushed).ir = s.ir := rfl
@[simp] theorem State.pushed_sp : (s.pushed).sp = s.sp - 1 := rfl
@[simp] theorem State.pushed_flags : (s.pushed).flags = s.flags := rfl
@[simp] theorem State.pushed_mem : (s.pushed).mem = s.mem := rfl
@[simp] theorem State.pushed_status : (s.pushed).status = s.status := rfl
@[simp] theorem State.pushed_cycles : (s.pushed).cycles = s.cycles := rfl
@[simp] theorem State.pushed_depth : (s.pushed).depth = s.depth + 1 := rfl
@[simp] theorem State.pushed_out : (s.pushed).out = s.out := rfl

@[simp] theorem State.readReg_pushed (q : RegIdx) : (s.pushed).readReg q = s.readReg q := rfl
@[simp] theorem State.inRange_pushed (p : Word) : (s.pushed).inRange p = s.inRange p := rfl
@[simp] theorem State.loadWord_pushed (p : Word) : (s.pushed).loadWord p = s.loadWord p := rfl

/-! ### popped -/

@[simp] theorem State.popped_cfg : (s.popped).cfg = s.cfg := rfl
@[simp] theorem State.popped_budget : (s.popped).budget = s.budget := rfl
@[simp] theorem State.popped_reg : (s.popped).reg = s.reg := rfl
@[simp] theorem State.popped_ip : (s.popped).ip = s.ip := rfl
@[simp] theorem State.popped_ir : (s.popped).ir = s.ir := rfl
@[simp] theorem State.popped_sp : (s.popped).sp = s.sp + 1 := rfl
@[simp] theorem State.popped_flags : (s.popped).flags = s.flags := rfl
@[simp] theorem State.popped_mem : (s.popped).mem = s.mem := rfl
@[simp] theorem State.popped_status : (s.popped).status = s.status := rfl
@[simp] theorem State.popped_cycles : (s.popped).cycles = s.cycles := rfl
@[simp] theorem State.popped_depth : (s.popped).depth = s.depth - 1 := rfl
@[simp] theorem State.popped_out : (s.popped).out = s.out := rfl

@[simp] theorem State.readReg_popped (q : RegIdx) : (s.popped).readReg q = s.readReg q := rfl
@[simp] theorem State.inRange_popped (p : Word) : (s.popped).inRange p = s.inRange p := rfl
@[simp] theorem State.loadWord_popped (p : Word) : (s.popped).loadWord p = s.loadWord p := rfl

/-! ### stopped -/

@[simp] theorem State.stopped_cfg (c : HaltReason) : (s.stopped c).cfg = s.cfg := rfl
@[simp] theorem State.stopped_budget (c : HaltReason) : (s.stopped c).budget = s.budget := rfl
@[simp] theorem State.stopped_reg (c : HaltReason) : (s.stopped c).reg = s.reg := rfl
@[simp] theorem State.stopped_ip (c : HaltReason) : (s.stopped c).ip = s.ip := rfl
@[simp] theorem State.stopped_ir (c : HaltReason) : (s.stopped c).ir = s.ir := rfl
@[simp] theorem State.stopped_sp (c : HaltReason) : (s.stopped c).sp = s.sp := rfl
@[simp] theorem State.stopped_flags (c : HaltReason) : (s.stopped c).flags = s.flags := rfl
@[simp] theorem State.stopped_mem (c : HaltReason) : (s.stopped c).mem = s.mem := rfl
@[simp] theorem State.stopped_status (c : HaltReason) : (s.stopped c).status = .halted c := rfl
@[simp] theorem State.stopped_cycles (c : HaltReason) : (s.stopped c).cycles = s.cycles := rfl
@[simp] theorem State.stopped_depth (c : HaltReason) : (s.stopped c).depth = s.depth := rfl
@[simp] theorem State.stopped_out (c : HaltReason) : (s.stopped c).out = s.out := rfl

@[simp] theorem State.readReg_stopped (c : HaltReason) (q : RegIdx) : (s.stopped c).readReg q = s.readReg q := rfl
@[simp] theorem State.inRange_stopped (c : HaltReason) (p : Word) : (s.stopped c).inRange p = s.inRange p := rfl
@[simp] theorem State.loadWord_stopped (c : HaltReason) (p : Word) : (s.stopped c).loadWord p = s.loadWord p := rfl

/-! ### counted -/

@[simp] theorem State.counted_cfg : (s.counted).cfg = s.cfg := rfl
@[simp] theorem State.counted_budget : (s.counted).budget = s.budget := rfl
@[simp] theorem State.counted_reg : (s.counted).reg = s.reg := rfl
@[simp] theorem State.counted_ip : (s.counted).ip = s.ip := rfl
@[simp] theorem State.counted_ir : (s.counted).ir = s.ir := rfl
@[simp] theorem State.counted_sp : (s.counted).sp = s.sp := rfl
@[simp] theorem State.counted_flags : (s.counted).flags = s.flags := rfl
@[simp] theorem State.counted_mem : (s.counted).mem = s.mem := rfl
@[simp] theorem State.counted_status : (s.counted).status = s.status := rfl
@[simp] theorem State.counted_cycles : (s.counted).cycles = s.cycles + 1 := rfl
@[simp] theorem State.counted_depth : (s.counted).depth = s.depth := rfl
@[simp] theorem State.counted_out : (s.counted).out = s.out := rfl

@[simp] theorem State.readReg_counted (q : RegIdx) : (s.counted).readReg q = s.readReg q := rfl
@[simp] theorem State.inRange_counted (p : Word) : (s.counted).inRange p = s.inRange p := rfl
@[simp] theorem State.loadWord_counted (p : Word) : (s.counted).loadWord p = s.loadWord p := rfl

/-! ### fetched -/

@[simp] theorem State.fetched_cfg : (s.fetched).cfg = s.cfg := rfl
@[simp] theorem State.fetched_budget : (s.fetched).budget = s.budget := rfl
@[simp] theorem State.fetched_reg : (s.fetched).reg = s.reg := rfl
@[simp] theorem State.fetched_ip : (s.fetched).ip = s.cfg.trunc (s.ip + 1) := rfl
@[simp] theorem State.fetched_ir : (s.fetched).ir = s.loadWord s.ip := rfl
@[simp] theorem State.fetched_sp : (s.fetched).sp = s.sp := rfl
@[simp] theorem State.fetched_flags : (s.fetched).flags = s.flags := rfl
@[simp] theorem State.fetched_mem : (s.fetched).mem = s.mem := rfl
@[simp] theorem State.fetched_status : (s.fetched).status = s.status := rfl
@[simp] theorem State.fetched_cycles : (s.fetched).cycles = s.cycles := rfl
@[simp] theorem State.fetched_depth : (s.fetched).depth = s.depth := rfl
@[simp] theorem State.fetched_out : (s.fetched).out = s.out := rfl

@[simp] theorem State.readReg_fetched (q : RegIdx) : (s.fetched).readReg q = s.readReg q := rfl
@[simp] theorem State.inRange_fetched (p : Word) : (s.fetched).inRange p = s.inRange p := rfl
@[simp] theorem State.loadWord_fetched (p : Word) : (s.fetched).loadWord p = s.loadWord p := rfl

/-! ### The output port -/

@[simp] theorem State.port_cfg (a v : Word) : (s.port a v).cfg = s.cfg := by
  unfold State.port; split <;> rfl
@[simp] theorem State.port_budget (a v : Word) : (s.port a v).budget = s.budget := by
  unfold State.port; split <;> rfl
@[simp] theorem State.port_reg (a v : Word) : (s.port a v).reg = s.reg := by
  unfold State.port; split <;> rfl
@[simp] theorem State.port_ip (a v : Word) : (s.port a v).ip = s.ip := by
  unfold State.port; split <;> rfl
@[simp] theorem State.port_ir (a v : Word) : (s.port a v).ir = s.ir := by
  unfold State.port; split <;> rfl
@[simp] theorem State.port_sp (a v : Word) : (s.port a v).sp = s.sp := by
  unfold State.port; split <;> rfl
@[simp] theorem State.port_flags (a v : Word) : (s.port a v).flags = s.flags := by
  unfold State.port; split <;> rfl
@[simp] theorem State.port_mem (a v : Word) : (s.port a v).mem = s.mem := by
  unfold State.port; split <;> rfl
@[simp] theorem State.port_status (a v : Word) : (s.port a v).status = s.status := by
  unfold State.port; split <;> rfl
@[simp] theorem State.port_cycles (a v : Word) : (s.port a v).cycles = s.cycles := by
  unfold State.port; split <;> rfl
@[simp] theorem State.port_depth (a v : Word) : (s.port a v).depth = s.depth := by
  unfold State.port; split <;> rfl
@[simp] theorem State.port_out (a v : Word) :
    (s.port a v).out = if a = s.cfg.mmioOutAddr then s.out ++ [lowByte v] else s.out := by
  unfold State.port; split <;> rfl

@[simp] theorem State.readReg_port (a v : Word) (q : RegIdx) : (s.port a v).readReg q = s.readReg q := by
  unfold State.port; split <;> rfl

/-! ### Reading a register after writing one -/

@[simp] theorem State.readReg_writeReg_same (r : RegIdx) (v : Word) : (s.writeReg r v).readReg r = v := by
  simp [State.readReg, State.writeReg]

theorem State.readReg_writeReg_other (v : Word) {r q : RegIdx} (h : q ≠ r) :
    (s.writeReg r v).readReg q = s.readReg q := by
  have : r.toNat ≠ q.toNat := fun e => h (BitVec.eq_of_toNat_eq e.symm)
  simp [State.readReg, State.writeReg, this]

/-- Everything that writing a register does to the register file. -/
theorem State.readReg_writeReg (r q : RegIdx) (v : Word) :
    (s.writeReg r v).readReg q = if q = r then v else s.readReg q := by
  split
  · next h => subst h; exact s.readReg_writeReg_same q v
  · next h => exact s.readReg_writeReg_other v h

end Sys2Proof.Machine
end

