-- ==== Sys2Proof/Laws/Ops.lean ====
section
/-! SUPPORT. For each shared operation, one lemma that says once everything it can do. -/

namespace Sys2Proof.Machine

/-! ### The ALU on the six vectors that the engine drives, with Words of 16 bits -/

@[simp] theorem alu_vectorAdd {cfg : Config} (h : cfg.wordBits = 16) (x y : Word) :
    alu cfg vectorAdd x y = aluOf cfg .add x y := by
  rw [alu_eq_aluOf h, show AluOp.ofVector vectorAdd = .add by decide]

@[simp] theorem alu_vectorSub {cfg : Config} (h : cfg.wordBits = 16) (x y : Word) :
    alu cfg vectorSub x y = aluOf cfg .subXY x y := by
  rw [alu_eq_aluOf h, show AluOp.ofVector vectorSub = .subXY by decide]

@[simp] theorem alu_vectorAnd {cfg : Config} (h : cfg.wordBits = 16) (x y : Word) :
    alu cfg vectorAnd x y = aluOf cfg .and x y := by
  rw [alu_eq_aluOf h, show AluOp.ofVector vectorAnd = .and by decide]

@[simp] theorem alu_vectorOr {cfg : Config} (h : cfg.wordBits = 16) (x y : Word) :
    alu cfg vectorOr x y = aluOf cfg .or x y := by
  rw [alu_eq_aluOf h, show AluOp.ofVector vectorOr = .or by decide]

@[simp] theorem alu_vectorMul {cfg : Config} (h : cfg.wordBits = 16) (x y : Word) :
    alu cfg vectorMul x y = aluOf cfg .mul x y := by
  rw [alu_eq_aluOf h, show AluOp.ofVector vectorMul = .mul by decide]

@[simp] theorem alu_vectorDiv {cfg : Config} (h : cfg.wordBits = 16) (x y : Word) :
    alu cfg vectorDiv x y = aluOf cfg .div x y := by
  rw [alu_eq_aluOf h, show AluOp.ofVector vectorDiv = .div by decide]

/-! ### The common form of the ALU instructions -/

/-- The register an ALU instruction writes holds the ALU's output. -/
@[simp] theorem aluInto_readReg_same (d : AluVector) (rd : RegIdx) (y : Word) (s : State) :
    (aluInto d rd y s).readReg rd = (alu s.cfg d (s.readReg rd) y).out := by
  simp [aluInto, State.operand]

/-- It writes no other register. -/
theorem aluInto_readReg_other (d : AluVector) {rd q : RegIdx} (y : Word) (s : State) (h : q ≠ rd) :
    (aluInto d rd y s).readReg q = s.readReg q := by
  simp [aluInto, State.readReg_writeReg_other _ _ h]

/-- It latches the flags of the same invocation. -/
@[simp] theorem aluInto_flags (d : AluVector) (rd : RegIdx) (y : Word) (s : State) :
    (aluInto d rd y s).flags = (alu s.cfg d (s.readReg rd) y).flags := rfl

/-- It changes nothing else. -/
theorem aluInto_frame (d : AluVector) (rd : RegIdx) (y : Word) (s : State) :
    aluInto d rd y s = { s with reg := (aluInto d rd y s).reg, flags := (aluInto d rd y s).flags } := rfl

/-! ### What each meaning that branches can do -/

/-- Everything a DIV can do. -/
theorem execDiv_cases (rd rs : RegIdx) (s : State) :
    (s.operand rs = 0 ∧ s.cfg.divZeroPolicy = .fatal ∧ execDiv rd rs s = raise .divideByZero s) ∨
    (¬(s.operand rs = 0 ∧ s.cfg.divZeroPolicy = .fatal) ∧
      execDiv rd rs s = .next (aluInto vectorDiv rd (s.operand rs) s)) := by
  unfold execDiv
  split
  · next h => exact .inl ⟨h.1, h.2, rfl⟩
  · next h => exact .inr ⟨h, rfl⟩

/-- Everything a JZ can do. -/
theorem execJz_cases (target : Imm) (s : State) :
    (s.flags.zr = true ∧ execJz target s = .next (s.jump (literal target))) ∨
    (s.flags.zr = false ∧ execJz target s = .next s) := by
  unfold execJz
  split
  · next h => exact .inl ⟨h, rfl⟩
  · next h => exact .inr ⟨by simpa using h, rfl⟩

/-- Everything a CALL can do. -/
theorem execCall_cases (target : Imm) (s : State) :
    (s.sp = 0 ∧ execCall target s = raise .stackOverflow s) ∨
    (s.sp ≠ 0 ∧ s.inRange s.sp = true ∧
      execCall target s = .next ((s.storeWord s.sp s.ip).pushed.jump (literal target))) ∨
    (s.sp ≠ 0 ∧ s.inRange s.sp = false ∧ execCall target s = .fault (.stackSlotOutOfRange s.sp)) := by
  unfold execCall
  split
  · next h => exact .inl ⟨h, rfl⟩
  · next h =>
    split
    · next h' => exact .inr (.inl ⟨h, h', rfl⟩)
    · next h' => exact .inr (.inr ⟨h, by simpa using h', rfl⟩)

/-- Everything a RET can do. -/
theorem execRet_cases (s : State) :
    (s.cfg.stackTop.toNat ≤ s.sp.toNat ∧ execRet s = raise .stackUnderflow s) ∨
    (s.sp.toNat < s.cfg.stackTop.toNat ∧ s.inRange (s.sp + 1) = true ∧
      execRet s = .next (s.popped.jump (s.loadWord (s.sp + 1)))) ∨
    (s.sp.toNat < s.cfg.stackTop.toNat ∧ s.inRange (s.sp + 1) = false ∧
      execRet s = .fault (.stackSlotOutOfRange (s.sp + 1))) := by
  unfold execRet
  split
  · next h => exact .inl ⟨h, rfl⟩
  · next h =>
    split
    · next h' => exact .inr (.inl ⟨by omega, h', rfl⟩)
    · next h' => exact .inr (.inr ⟨by omega, by simpa using h', rfl⟩)

/-- Everything a LOAD can do. -/
theorem execLoad_cases (rd ra : RegIdx) (s : State) :
    (s.inRange (s.readReg ra) = true ∧
      execLoad rd ra s = .next (s.writeReg rd (s.loadWord (s.readReg ra)))) ∨
    (s.inRange (s.readReg ra) = false ∧ execLoad rd ra s = raise .loadOutOfRange s) := by
  unfold execLoad State.address
  split
  · next h => exact .inl ⟨h, rfl⟩
  · next h => exact .inr ⟨by simpa using h, rfl⟩

/-- Everything a STORE can do. -/
theorem execStore_cases (rs ra : RegIdx) (s : State) :
    (s.inRange (s.readReg ra) = true ∧ execStore rs ra s =
      .next ((s.storeWord (s.readReg ra) (s.readReg rs)).port (s.readReg ra) (s.readReg rs))) ∨
    (s.inRange (s.readReg ra) = false ∧ execStore rs ra s = raise .storeOutOfRange s) := by
  unfold execStore State.address State.operand
  split
  · next h => exact .inl ⟨h, rfl⟩
  · next h => exact .inr ⟨by simpa using h, rfl⟩

/-! ### The start of a cycle -/

@[simp] theorem State.inRange_iff (s : State) (a : Word) : s.inRange a = true ↔ a.toNat < s.cfg.memWords := by
  simp [State.inRange]

@[simp] theorem State.budgetSpent_iff (s : State) : s.budgetSpent = true ↔ s.budget = some s.cycles := by
  simp [State.budgetSpent]

/-- Everything the start of a cycle can come to, in the order of R223. -/
theorem startCycle_cases (s : State) :
    (∃ c, s.status = .halted c ∧ startCycle s = .stuck c) ∨
    (s.status = .running ∧ s.budget = some s.cycles ∧ startCycle s = .ended (s.stopped .incomplete)) ∨
    (s.status = .running ∧ s.budget ≠ some s.cycles ∧ s.ip.toNat < s.cfg.memWords ∧
      startCycle s = .execute (decode s.cfg (s.loadWord s.ip)) s.counted.fetched) ∨
    (s.status = .running ∧ s.budget ≠ some s.cycles ∧ s.cfg.memWords ≤ s.ip.toNat ∧
      startCycle s = .ended (s.counted.stopped .fetchOutOfRange)) := by
  cases hs : s.status with
  | halted c => exact .inl ⟨c, rfl, by simp [startCycle, hs]⟩
  | running =>
    by_cases hb : s.budget = some s.cycles
    · exact .inr (.inl ⟨rfl, hb, by simp [startCycle, hs, hb]⟩)
    · by_cases hi : s.ip.toNat < s.cfg.memWords
      · exact .inr (.inr (.inl ⟨rfl, hb, hi, by simp [startCycle, hs, hb, hi]⟩))
      · exact .inr (.inr (.inr ⟨rfl, hb, by omega, by simp [startCycle, hs, hb, hi]⟩))

end Sys2Proof.Machine
end

