-- ==== Sys2Proof/Laws/Exec.lean ====
section
/-! SUPPORT. What the execute phase can do, once for all instructions: the statements about every instruction
cite this instead of unfolding `exec`. -/

namespace Sys2Proof.Machine

/-- Every way in which an instruction answers a next state: it changes nothing, writes a literal or a loaded
word to its destination, takes the ALU's answer, jumps to its target, calls, returns, stores, or ends the run. -/
theorem exec_cases {i : Instr} {s t : State} (h : exec i s = .next t) :
    t = s ∨
    (∃ rd v, destination i = some rd ∧ writesFlags i = false ∧
      ((∃ imm, v = literal imm) ∨ ∃ a, v = s.loadWord a) ∧ t = s.writeReg rd v) ∨
    (∃ rd d y, destination i = some rd ∧ writesFlags i = true ∧ t = aluInto d rd y s) ∨
    (∃ target, (i = .jmp target ∨ i = .jz target) ∧ t = s.jump (literal target)) ∨
    (∃ target, i = .call target ∧ s.sp ≠ 0 ∧ s.inRange s.sp = true ∧
      t = (s.storeWord s.sp s.ip).pushed.jump (literal target)) ∨
    (i = .ret ∧ s.sp.toNat < s.cfg.stackTop.toNat ∧ t = s.popped.jump (s.loadWord (s.sp + 1))) ∨
    (∃ rs ra, i = .store rs ra ∧ s.inRange (s.readReg ra) = true ∧
      t = (s.storeWord (s.readReg ra) (s.readReg rs)).port (s.readReg ra) (s.readReg rs)) ∨
    ∃ c, t = s.stopped c := by
  cases i with
  | nop => cases h; exact .inl rfl
  | mov rd imm => cases h; exact .inr (.inl ⟨_, _, rfl, rfl, .inl ⟨imm, rfl⟩, rfl⟩)
  | addImm rd imm => cases h; exact .inr (.inr (.inl ⟨_, _, _, rfl, rfl, rfl⟩))
  | addReg rd rs => cases h; exact .inr (.inr (.inl ⟨_, _, _, rfl, rfl, rfl⟩))
  | subImm rd imm => cases h; exact .inr (.inr (.inl ⟨_, _, _, rfl, rfl, rfl⟩))
  | subReg rd rs => cases h; exact .inr (.inr (.inl ⟨_, _, _, rfl, rfl, rfl⟩))
  | and rd rs => cases h; exact .inr (.inr (.inl ⟨_, _, _, rfl, rfl, rfl⟩))
  | or rd rs => cases h; exact .inr (.inr (.inl ⟨_, _, _, rfl, rfl, rfl⟩))
  | mul rd rs => cases h; exact .inr (.inr (.inl ⟨_, _, _, rfl, rfl, rfl⟩))
  | div rd rs =>
    rcases execDiv_cases rd rs s with ⟨_, _, e⟩ | ⟨_, e⟩ <;> (rw [exec, e] at h; cases h)
    · exact .inr (.inr (.inr (.inr (.inr (.inr (.inr ⟨_, rfl⟩))))))
    · exact .inr (.inr (.inl ⟨_, _, _, rfl, rfl, rfl⟩))
  | jmp target => cases h; exact .inr (.inr (.inr (.inl ⟨target, .inl rfl, rfl⟩)))
  | jz target =>
    rcases execJz_cases target s with ⟨_, e⟩ | ⟨_, e⟩ <;> (rw [exec, e] at h; cases h)
    · exact .inr (.inr (.inr (.inl ⟨target, .inr rfl, rfl⟩)))
    · exact .inl rfl
  | call target =>
    rcases execCall_cases target s with ⟨_, e⟩ | ⟨h1, h2, e⟩ | ⟨_, _, e⟩ <;> (rw [exec, e] at h; cases h)
    · exact .inr (.inr (.inr (.inr (.inr (.inr (.inr ⟨_, rfl⟩))))))
    · exact .inr (.inr (.inr (.inr (.inl ⟨target, rfl, h1, h2, rfl⟩))))
  | ret =>
    rcases execRet_cases s with ⟨_, e⟩ | ⟨h1, h2, e⟩ | ⟨_, _, e⟩ <;> (rw [exec, e] at h; cases h)
    · exact .inr (.inr (.inr (.inr (.inr (.inr (.inr ⟨_, rfl⟩))))))
    · exact .inr (.inr (.inr (.inr (.inr (.inl ⟨rfl, h1, rfl⟩)))))
  | halt => cases h; exact .inr (.inr (.inr (.inr (.inr (.inr (.inr ⟨_, rfl⟩))))))
  | load rd ra =>
    rcases execLoad_cases rd ra s with ⟨_, e⟩ | ⟨_, e⟩ <;> (rw [exec, e] at h; cases h)
    · exact .inr (.inl ⟨_, _, rfl, rfl, .inr ⟨_, rfl⟩, rfl⟩)
    · exact .inr (.inr (.inr (.inr (.inr (.inr (.inr ⟨_, rfl⟩))))))
  | store rs ra =>
    rcases execStore_cases rs ra s with ⟨h1, e⟩ | ⟨_, e⟩ <;> (rw [exec, e] at h; cases h)
    · exact .inr (.inr (.inr (.inr (.inr (.inr (.inl ⟨_, _, rfl, h1, rfl⟩))))))
    · exact .inr (.inr (.inr (.inr (.inr (.inr (.inr ⟨_, rfl⟩))))))
  | illegal => cases h; exact .inr (.inr (.inr (.inr (.inr (.inr (.inr ⟨_, rfl⟩))))))

end Sys2Proof.Machine
end

