-- ==== Sys2Proof/Laws/PerInstr.lean ====
section
/-! SUPPORT. The families of statements about an instruction as syntax, one lemma per constructor. -/

namespace Sys2Proof.Laws

/-- EncodedOpcode: under every valid profile, the top four bits of an instruction's canonical word are its
opcode. -/
def EncodedOpcode.Statement (i : Instr) : Prop :=
  ∀ cfg : Config, cfg.Valid → (unpack cfg (encode cfg i)).op = i.opcode


theorem EncodedOpcode.nop : Statement (.nop) :=
  fun _ h => unpack_pack_op h _

theorem EncodedOpcode.mov (rd : RegIdx) (imm : Imm) : Statement (.mov rd imm) :=
  fun _ h => unpack_pack_op h _

theorem EncodedOpcode.addImm (rd : RegIdx) (imm : Imm) : Statement (.addImm rd imm) :=
  fun _ h => unpack_pack_op h _

theorem EncodedOpcode.addReg (rd rs : RegIdx) : Statement (.addReg rd rs) :=
  fun _ h => unpack_pack_op h _

theorem EncodedOpcode.subImm (rd : RegIdx) (imm : Imm) : Statement (.subImm rd imm) :=
  fun _ h => unpack_pack_op h _

theorem EncodedOpcode.subReg (rd rs : RegIdx) : Statement (.subReg rd rs) :=
  fun _ h => unpack_pack_op h _

theorem EncodedOpcode.and (rd rs : RegIdx) : Statement (.and rd rs) :=
  fun _ h => unpack_pack_op h _

theorem EncodedOpcode.or (rd rs : RegIdx) : Statement (.or rd rs) :=
  fun _ h => unpack_pack_op h _

theorem EncodedOpcode.mul (rd rs : RegIdx) : Statement (.mul rd rs) :=
  fun _ h => unpack_pack_op h _

theorem EncodedOpcode.div (rd rs : RegIdx) : Statement (.div rd rs) :=
  fun _ h => unpack_pack_op h _

theorem EncodedOpcode.jmp (target : Imm) : Statement (.jmp target) :=
  fun _ h => unpack_pack_op h _

theorem EncodedOpcode.jz (target : Imm) : Statement (.jz target) :=
  fun _ h => unpack_pack_op h _

theorem EncodedOpcode.call (target : Imm) : Statement (.call target) :=
  fun _ h => unpack_pack_op h _

theorem EncodedOpcode.ret : Statement (.ret) :=
  fun _ h => unpack_pack_op h _

theorem EncodedOpcode.halt : Statement (.halt) :=
  fun _ h => unpack_pack_op h _

theorem EncodedOpcode.load (rd ra : RegIdx) : Statement (.load rd ra) :=
  fun _ h => unpack_pack_op h _

theorem EncodedOpcode.store (rs ra : RegIdx) : Statement (.store rs ra) :=
  fun _ h => unpack_pack_op h _

theorem EncodedOpcode.illegal : Statement (.illegal) :=
  fun _ h => unpack_pack_op h _

end Sys2Proof.Laws
end

