-- ==== Sys2Proof/Tests/Slice0.lean ====
section
/-! SUPPORT. Small checks of the model, and for each obligation with hypotheses a witness that meets them.
Expected values are those of 95_test_vectors.md (L1 and L2) and of the rules named beside them. -/

namespace Sys2Proof.Tests

open Sys2Proof.Machine

/-! ### Helpers -/

/-- The state after reset with some registers set. -/
def holding (rs : List (RegIdx × Word)) : State :=
  rs.foldl (fun s p => s.writeReg p.1 p.2) State.reset

/-- One step at address `a` over the word `w`, if it answers a next state. -/
def stepOver (a w : Word) (s : State) : Option State :=
  match step ({ s with ip := a }.readyToFetch w) with
  | .next t => some t
  | .fault _ => none
  | .refused _ => none

/-- A register and the flags `zr`, `ng`, `ov`, `cy` after one step over `w`. -/
def regAndFlags (r : RegIdx) (w : Word) (s : State) : Option (Word × Bool × Bool × Bool × Bool) :=
  (stepOver 0 w s).map fun t => (t.readReg r, t.flags.zr, t.flags.ng, t.flags.ov, t.flags.cy)

/-- The profile in which ADD and SUB take only literals and LOAD and STORE do not exist. -/
def narrow : Config :=
  { Config.canonical with addOperandProfile := .immOnly, extended := false }

/-- The profile with the alternatives of DIV, MUL and the subtraction's carry. -/
def alternative : Config :=
  { Config.canonical with
    divZeroPolicy := .flaggedContinue, divSignedness := .signed
    mulOverflowSignedness := .signed, subCarryConvention := .notBorrow }

/-- A profile with narrower words, fewer registers and a narrower immediate. -/
def small : Config :=
  { Config.canonical with wordBits := 15, nregs := 4, immBits := 5, immSelector := 7 }

/-! ### WellFormed refuses the terms that no word can hold (R80, R81, R84, R95) -/

theorem test_wf_addReg_selector : (Instr.addReg 1 7).wellFormed .canonical = false := by decide
theorem test_wf_subReg_selector : (Instr.subReg 1 7).wellFormed .canonical = false := by decide
theorem test_wf_addReg_immOnly : (Instr.addReg 1 2).wellFormed narrow = false := by decide
theorem test_wf_subReg_immOnly : (Instr.subReg 1 2).wellFormed narrow = false := by decide
theorem test_wf_load_notExtended : (Instr.load 1 2).wellFormed narrow = false := by decide
theorem test_wf_store_notExtended : (Instr.store 1 2).wellFormed narrow = false := by decide
theorem test_wf_register_absent : (Instr.mov 4 5).wellFormed small = false := by decide
theorem test_wf_literal_too_wide : (Instr.mov 3 32).wellFormed small = false := by decide
theorem test_wf_addReg_last : (Instr.addReg 1 6).wellFormed .canonical = true := by decide

/-! ### Every constructor's decoding, from a word written `op r1 r2 imm` after R71 and R79 -/

theorem test_decode_nop : decode .canonical 0b0000_111_111_111111#16 = .nop := by decide
theorem test_decode_mov : decode .canonical 0b0001_001_001_000101#16 = .mov 1 5 := by decide
theorem test_decode_addImm : decode .canonical 0b0010_001_111_000101#16 = .addImm 1 5 := by decide
theorem test_decode_addReg : decode .canonical 0b0010_100_010_000000#16 = .addReg 4 2 := by decide
theorem test_decode_addReg_ignores_imm : decode .canonical 0b0010_001_001_001001#16 = .addReg 1 1 := by
  decide
theorem test_decode_subImm : decode .canonical 0b0011_010_111_000001#16 = .subImm 2 1 := by decide
theorem test_decode_subReg : decode .canonical 0b0011_101_011_000000#16 = .subReg 5 3 := by decide
theorem test_decode_and : decode .canonical 0b0100_001_010_000000#16 = .and 1 2 := by decide
theorem test_decode_or : decode .canonical 0b0101_001_010_000000#16 = .or 1 2 := by decide
theorem test_decode_mul : decode .canonical 0b0110_000_001_000000#16 = .mul 0 1 := by decide
theorem test_decode_div : decode .canonical 0b0111_011_100_000000#16 = .div 3 4 := by decide
theorem test_decode_jmp : decode .canonical 0b1000_000_000_000100#16 = .jmp 4 := by decide
theorem test_decode_jz : decode .canonical 0b1001_000_000_010001#16 = .jz 17 := by decide
theorem test_decode_call : decode .canonical 0b1010_000_000_000111#16 = .call 7 := by decide
theorem test_decode_ret : decode .canonical 0b1011_000_000_000000#16 = .ret := by decide
theorem test_decode_halt : decode .canonical 0b1100_000_000_000000#16 = .halt := by decide
theorem test_decode_load : decode .canonical 0b1101_011_010_000000#16 = .load 3 2 := by decide
theorem test_decode_store : decode .canonical 0b1110_000_001_000000#16 = .store 0 1 := by decide
theorem test_decode_illegal : decode .canonical 0b1111_000_100_100011#16 = .illegal := by decide
theorem test_decode_load_notExtended : decode narrow 0b1101_011_010_000000#16 = .illegal := by decide
theorem test_decode_add_immOnly : decode narrow 0b0010_100_010_000011#16 = .addImm 4 3 := by decide

/-- L2.1: every field is masked. -/
theorem test_pack_masks : packInts .canonical 16 8 8 64 = 0 ∧ packInts .canonical 2 1 7 (-1) = 0x23FF#16 := by decide

/-! ### The widths are arguments (R6): 15-bit words, four registers, 5-bit immediates (log 21) -/

theorem test_small_pack : pack small ⟨1, 3, 0, 63⟩ = 0b0_0001_011_000_11111#16 := by decide
theorem test_small_mov : decode small (pack small ⟨1, 3, 0, 63⟩) = .mov 3 31 := by decide
theorem test_small_absent_register : decode small (pack small ⟨1, 4, 0, 5⟩) = .illegal := by decide
theorem test_small_add_overflows : alu small vectorAdd 0x3FFF 1 =
    { out := 0x4000, zr := false, ng := true, ov := true, cy := false, undef := false } := by decide
theorem test_small_add_wraps : alu small vectorAdd 0x7FFF 1 =
    { out := 0, zr := true, ng := false, ov := false, cy := true, undef := false } := by decide

/-- The host's two words for a row: what it decodes to, and that the first step after reset runs it. -/
theorem test_table_word :
    decodeTableWord 16 0xC000 = some .halt ∧
    (step (State.reset.withFetchWord 16 0xC000) =
      .next { State.reset.withFetchWord 16 0xC000 with
        ip := 1, ir := 0xC000#16, cycles := 1, status := .halted .halt }) :=
  ⟨by decide, rfl⟩

/-! ### One step of each instruction (L2.3) -/

theorem test_nop : (stepOver 0 0x0FFF (holding [])).map (fun t => (t.ip, t.reg, t.status)) =
    some (1, Vector.replicate 8 0, .running) := by decide
theorem test_mov_literal : regAndFlags 7 0x1E3F (holding []) = some (0x3F, false, false, false, false) := by
  decide
theorem test_addImm_wraps : regAndFlags 2 0x25C1 (holding [(2, 0xFFFF)]) =
    some (0, true, false, false, true) := by decide
theorem test_addImm_ignores_r7 : regAndFlags 1 0x23C5 (holding [(1, 10), (7, 100)]) =
    some (15, false, false, false, false) := by decide
theorem test_addReg_overflows : regAndFlags 0 0x2040 (holding [(0, 0x7FFF), (1, 1)]) =
    some (0x8000, false, true, true, false) := by decide
theorem test_addReg_same_register : regAndFlags 0 0x2000 (holding [(0, 0x8000)]) =
    some (0, true, false, true, true) := by decide
theorem test_subImm : regAndFlags 2 0x35C1 (holding [(2, 400)]) =
    some (399, false, false, false, false) := by decide
theorem test_subReg_borrows : regAndFlags 0 0x3040 (holding [(1, 1)]) =
    some (0xFFFF, false, true, false, true) := by decide
theorem test_subReg_overflows : regAndFlags 0 0x3040 (holding [(0, 0x7FFF), (1, 0xFFFF)]) =
    some (0x8000, false, true, true, true) := by decide
theorem test_and_clears_flags :
    regAndFlags 1 0x4280 ((holding [(1, 0xF000), (2, 0x0FFF)]).latch ⟨false, false, true, true⟩) =
      some (0, true, false, false, false) := by decide
theorem test_or : regAndFlags 1 0x5280 (holding [(1, 0xF000), (2, 0x0F00)]) =
    some (0xFF00, false, true, false, false) := by decide
theorem test_mul_low_half : regAndFlags 0 0x6040 (holding [(0, 0xFFFF), (1, 0xFFFF)]) =
    some (1, false, false, true, true) := by decide
theorem test_mul_fits : regAndFlags 0 0x6040 (holding [(0, 0x00FF), (1, 0x0100)]) =
    some (0xFF00, false, true, false, false) := by decide
theorem test_div : regAndFlags 3 0x7700 (holding [(3, 0xFFFF), (4, 2)]) =
    some (0x7FFF, false, false, false, false) := by decide
theorem test_div_by_zero_fatal : (stepOver 5 0x7740 (holding [(3, 42)])).map
    (fun t => (t.readReg 3, t.ip, t.status)) = some (42, 6, .halted .divideByZero) := by decide

/-- R120: the signed quotient of -32768 by -1 (L2.2, alternative parameters). -/
theorem test_alu_div_signed_overflow : alu alternative vectorDiv 0x8000 0xFFFF =
    { out := 0x8000, zr := false, ng := true, ov := true, cy := false, undef := false } := by decide

/-! ### Control transfer (L2.4) and memory access (L2.5) -/

theorem test_jmp : (stepOver 16 0x8004 (holding [])).map (·.ip) = some 4 := by decide
theorem test_jz_taken :
    (stepOver 14 0x9011 ((holding []).latch ⟨true, false, false, false⟩)).map (fun t => (t.ip, t.flags.zr)) =
      some (17, true) := by decide
theorem test_jz_not_taken : (stepOver 14 0x9011 (holding [])).map (·.ip) = some 15 := by decide
theorem test_call : (stepOver 3 0xA007 (holding [])).map
    (fun t => (t.mem.read 399, t.sp, t.ip, t.depth)) = some (4, 398, 7, 1) := by decide
theorem test_call_overflow : (stepOver 3 0xA007 { holding [] with sp := 0 }).map
    (fun t => (t.sp, t.ip, t.status)) = some (0, 4, .halted .stackOverflow) := by decide
theorem test_ret :
    (stepOver 0 0xB000 ({ holding [] with sp := 398 }.storeWord 399 4)).map (fun t => (t.sp, t.ip)) =
      some (399, 4) := by decide
theorem test_ret_underflow : (stepOver 0 0xB000 (holding [])).map (fun t => (t.sp, t.ip, t.status)) =
    some (399, 1, .halted .stackUnderflow) := by decide
theorem test_halt : (stepOver 17 0xC000 (holding [])).map (fun t => (t.ip, t.status)) =
    some (18, .halted .halt) := by decide
theorem test_illegal : (stepOver 0 0xF000 (holding [])).map (fun t => (t.ip, t.ir, t.status)) =
    some (1, 0xF000, .halted .illegalOpcode) := by decide
theorem test_load_same_register :
    (stepOver 0 0xD480 ((holding [(2, 5)]).storeWord 5 77)).map (·.readReg 2) = some 77 := by decide
theorem test_load_out_of_range : (stepOver 0 0xD680 (holding [(2, 0xFFFF)])).map
    (fun t => (t.readReg 3, t.status)) = some (0, .halted .loadOutOfRange) := by decide
theorem test_store_port : (stepOver 0 0xE040 (holding [(0, 0x1248), (1, 32)])).map
    (fun t => (t.mem.read 32, t.out)) = some (0x1248, [0x48]) := by decide
theorem test_store_out_of_range : (stepOver 0 0xE040 (holding [(0, 5), (1, 400)])).map
    (fun t => (t.mem.read 400, t.status)) = some (0, .halted .storeOutOfRange) := by decide

/-! ### The assembler (L1.4, L2.7) -/

/-- The words of a text under `Reject`. -/
def assembled (text : String) : List Word :=
  (assemble .canonical .reject text.toList).words

theorem test_forward_label : assembled "JMP done\nNOP\ndone: HALT" = [0x8002, 0, 0xC000] := by decide
theorem test_comments_and_case : assembled "; c\n  NOP ; x\nhalt\nmov r2, 3" = [0, 0xC000, 0x1403] := by
  decide
theorem test_register_not_encodable : (assemble .canonical .reject "ADD R1, R7".toList).errors =
    [{ line := 1, problem := .registerNotEncodable }] := by decide
theorem test_unresolved_label_sentinel :
    (assemble .canonical .sentinel63 "JMP nowhere".toList).words = [0x803F] := by decide

/-! ### States for the witnesses -/

/-- A core inside one subroutine, two cycles into a budget of five, with the return address 4 in the slot
and the word `w` at its IP. -/
def inside (w : Word) : State :=
  { (holding [(0, 0x1248), (1, 32), (2, 399), (3, 400)]) with
    mem := [(14, w.extractLsb' 0 8), (15, w.extractLsb' 8 8), (798, 4)]
    ip := 7, sp := 398, depth := 1, cycles := 2, budget := some 5 }

/-- It is about to execute `STORE R0, R1`, to the output address. -/
def storing : State := inside 0xE040

theorem storing_inv : storing.Inv where
  sizes := by decide
  memoryForm := by decide
  memoryRange := by decide
  stackRange := by decide
  registersFit := fun _ => BitVec.isLt _
  cellsFit := fun _ => BitVec.isLt _
  ipFits := BitVec.isLt _
  irFits := BitVec.isLt _
  depthCounts := by decide
  budgetKept := by
    intro b hb
    cases hb
    decide

/-- It is about to execute `DIV R3, R4`, with R4 = 0. -/
def dividing : State := inside 0x7700

/-- The same core after the run has ended. -/
def ended : State := { storing with status := .halted .halt }

/-! ### Witnesses: the codec and the ALU -/

/-- The codec statements and the decoder's map hold at these widths, in every profile that has them. -/
theorem witness_source_widths : Config.canonical.SourceWidths ∧ narrow.SourceWidths ∧ alternative.SourceWidths := by
  decide

/-- The ALU statements, and those of the instructions that use the ALU, hold at this width. -/
theorem witness_word_width : Config.canonical.wordBits = 16 ∧ (holding [(0, 0x8000)]).cfg.wordBits = 16 := by
  decide

/-- The last word of the last opcode, in a valid profile of each width. -/
theorem witness_EveryWordDecodesWellFormed : Config.canonical.Valid ∧ small.Valid ∧
    decode .canonical 0xFFFF = .illegal := by decide

theorem witness_DecodeInvertsEncode : Config.canonical.Valid ∧ narrow.Valid ∧ small.Valid ∧
    (Instr.addReg 7 6).wellFormed .canonical = true ∧ (Instr.subReg 0 0).wellFormed .canonical = true ∧
    (Instr.load 7 7).wellFormed .canonical = true ∧ (Instr.addImm 7 63).wellFormed narrow = true ∧
    (Instr.mov 3 31).wellFormed small = true := by
  decide

theorem witness_UndefinedVectorsGiveZero :
    0b111101#6 ∈ [0b101010#6, 0b111111#6, 0b111010#6, 0b001100#6, 0b110000#6, 0b001101#6, 0b110001#6,
      0b001111#6, 0b110011#6, 0b011111#6, 0b110111#6, 0b001110#6, 0b110010#6, 0b000010#6,
      0b010011#6, 0b000111#6, 0b000000#6, 0b010101#6, 0b111100#6, 0b111101#6] ∧
    0b000001#6 ∉ [0b101010#6, 0b111111#6, 0b111010#6, 0b001100#6, 0b110000#6, 0b001101#6, 0b110001#6,
      0b001111#6, 0b110011#6, 0b011111#6, 0b110111#6, 0b001110#6, 0b110010#6, 0b000010#6,
      0b010011#6, 0b000111#6, 0b000000#6, 0b010101#6, 0b111100#6, 0b111101#6] := by
  decide

theorem witness_DatapathGivesTheTable : Config.canonical.wordBits = 16 ∧
    0b010101#6 ∈ [0b101010#6, 0b111111#6, 0b111010#6, 0b001100#6, 0b110000#6, 0b001101#6, 0b110001#6,
      0b001111#6, 0b110011#6, 0b011111#6, 0b110111#6, 0b001110#6, 0b110010#6, 0b000010#6,
      0b010011#6, 0b000111#6, 0b000000#6, 0b010101#6] := by
  decide

theorem witness_AdditionIsTheCarryChain : Config.canonical.wordBits = 16 ∧
    (AluOp.ofVector 0b000010#6).kind 0x7FFF#16 1 = .add 0x7FFF 1 ∧
    (AluOp.ofVector 0b110111#6).kind 0#16 0xFFFF = .add 0xFFFF 1 := by decide

theorem witness_SubtractionBorrows : alternative.wordBits = 16 ∧
    (AluOp.ofVector 0b010011#6).kind 0#16 1 = .sub 0 1 ∧
    (AluOp.ofVector 0b001111#6).kind 0x8000#16 0 = .sub 0 0x8000 := by decide

theorem witness_OverflowIsExactSignedOverflow : Config.canonical.wordBits = 16 ∧
    (AluOp.ofVector 0b000010#6).kind 0x7FFF#16 1 = .add 0x7FFF 1 ∧
    (AluOp.ofVector 0b000111#6).kind 1#16 0x8000 = .sub 0x8000 1 := by decide

theorem witness_QuotientAndItsFlags : Config.canonical.wordBits = 16 ∧ alternative.wordBits = 16 ∧
    (2#16 ≠ 0 ∧ Config.canonical.divSignedness = .unsigned) ∧
    (0xFFFF#16 ≠ 0 ∧ alternative.divSignedness = .signed ∧ 0x8000#16 = 0x8000#16 ∧ 0xFFFF#16 = 0xFFFF#16) ∧
    ¬(0x8001#16 = 0x8000#16 ∧ 0xFFFF#16 = 0xFFFF#16) := by decide

/-! ### Witnesses: the instructions -/

theorem witness_DivDividesByNonzero : (holding [(4, 1)]).cfg.wordBits = 16 ∧ alternative.wordBits = 16 ∧
    ((holding [(4, 1)]).readReg 4 ≠ 0 ∧ (holding [(4, 1)]).cfg.divSignedness = .unsigned) ∧
    ({ holding [(4, 0xFFFF)] with cfg := alternative }.readReg 4 ≠ 0 ∧
      alternative.divSignedness = .signed) := by decide

theorem witness_DivByZeroFollowsPolicy :
    (dividing.readReg 4 = 0 ∧ dividing.cfg.divZeroPolicy = .fatal) ∧
    ({ dividing with cfg := alternative }.readReg 4 = 0 ∧
      { dividing with cfg := alternative }.cfg.divZeroPolicy = .flaggedContinue) := by decide

/-- The last CALL that succeeds, and the first. -/
theorem witness_CallPushesAndJumps :
    ({ storing with sp := 1 }.sp ≠ 0 ∧ { storing with sp := 1 }.sp.toNat < storing.cfg.memWords) ∧
    State.reset.sp ≠ 0 ∧ State.reset.sp.toNat < State.reset.cfg.memWords := by decide

theorem witness_CallOverflowsAtZero : { storing with sp := 0 }.sp = 0 := by decide

theorem witness_RetPopsReturnAddress :
    storing.sp.toNat < storing.cfg.stackTop.toNat ∧ storing.sp.toNat + 1 < storing.cfg.memWords := by decide

theorem witness_RetUnderflowsAtTop :
    State.reset.cfg.stackTop.toNat ≤ State.reset.sp.toNat := by decide

theorem witness_LoadReadsAddressedWord : (storing.readReg 2).toNat < storing.cfg.memWords := by decide

theorem witness_StoreWritesAddressedWord :
    (storing.readReg 2).toNat < storing.cfg.memWords ∧ storing.readReg 2 ≠ storing.cfg.mmioOutAddr := by
  decide

theorem witness_StoreToPortEmitsLowByte :
    (storing.readReg 1).toNat < storing.cfg.memWords ∧ storing.readReg 1 = storing.cfg.mmioOutAddr ∧
    ∃ t, exec (.store 0 1) storing = .next t ∧ t.out ≠ storing.out :=
  ⟨by decide, by decide, _, rfl, by decide⟩

theorem witness_OutOfRangeAccessesEndTheRun : storing.cfg.memWords ≤ (storing.readReg 3).toNat := by decide

/-! ### Witnesses: the cycle and the run -/

theorem storing_canFetch : storing.canFetch := ⟨by decide, by decide, by decide⟩

theorem witness_StepRunsDecodedInstruction :
    storing.canFetch ∧ decode storing.cfg (storing.mem.read storing.ip.toNat) = .store 0 1 ∧
    (Instr.store 0 1).wellFormed storing.cfg = true :=
  ⟨storing_canFetch, by decide, by decide⟩

theorem witness_HaltedIsTerminal : ended.status = .halted .halt := by decide

theorem witness_SpentBudgetEndsTheRun :
    { storing with cycles := 5 }.status = .running ∧
    { storing with cycles := 5 }.budget = some { storing with cycles := 5 }.cycles := by decide

theorem witness_FetchOutsideMemoryEndsTheRun :
    { storing with ip := 400 }.status = .running ∧ storing.budget ≠ some storing.cycles ∧
    storing.cfg.memWords ≤ { storing with ip := 400 }.ip.toNat := by decide

theorem witness_FatalConditionsArePrecise :
    dividing.canFetch ∧ ∃ t, step dividing = .next t ∧ t.status = .halted .divideByZero ∧
      HaltReason.divideByZero.fatal = true :=
  ⟨⟨by decide, by decide, by decide⟩, _, rfl, by decide, by decide⟩

theorem witness_StepKeepsInvariant : storing.Inv ∧ ∃ t, step storing = .next t :=
  ⟨storing_inv, _, rfl⟩

theorem witness_RunningCoreAlwaysSteps : storing.Inv ∧ storing.status = .running :=
  ⟨storing_inv, by decide⟩

theorem witness_EveryRunEnds :
    (storing.Inv ∧ storing.budget = some 5) ∧ storing.Inv ∧ storing.cycles ≤ 2 :=
  ⟨⟨storing_inv, by decide⟩, storing_inv, by decide⟩

/-- The longest program that fits, its last word, and the shortest that does not fit. -/
theorem witness_LoadProgramPlacesItsWords :
    (List.replicate 400 0xC000#16).length ≤ Config.canonical.memWords ∧
    399 < (List.replicate 400 0xC000#16).length ∧
    Config.canonical.memWords < (List.replicate 401 0xC000#16).length := by
  simp only [List.length_replicate]
  decide

/-! ### Witnesses: the rules about the whole machine -/

theorem witness_OnlyDestinationRegisterChanges :
    ∃ t, exec (.mov 4 9) storing = .next t ∧ t.readReg 4 ≠ storing.readReg 4 :=
  ⟨_, rfl, by decide⟩

theorem witness_OnlyAluInstructionsWriteFlags :
    ∃ t, exec (.and 0 4) storing = .next t ∧ t.flags ≠ storing.flags :=
  ⟨_, rfl, by decide⟩

theorem witness_OnlyStoreAndCallWriteMemory :
    (∃ t, exec (.store 0 2) storing = .next t ∧ t.mem ≠ storing.mem) ∧
    ∃ t, exec (.call 9) storing = .next t ∧ t.mem ≠ storing.mem :=
  ⟨⟨_, rfl, by decide⟩, _, rfl, by decide⟩

theorem witness_OnlyCallAndRetMoveTheStack :
    (∃ t, exec .ret storing = .next t ∧ t.sp ≠ storing.sp) ∧ ∃ t, exec .nop storing = .next t :=
  ⟨⟨_, rfl, by decide⟩, _, rfl⟩

theorem witness_OnlyControlTransfersMoveIp :
    ∃ t, exec (.jmp 63) storing = .next t ∧ t.ip ≠ storing.ip :=
  ⟨_, rfl, by decide⟩

theorem witness_EveryCycleIsCounted :
    (∃ t, step storing = .next t ∧ storing.budget ≠ some storing.cycles) ∧
    ∃ t, step { storing with cycles := 5 } = .next t :=
  ⟨⟨_, rfl, by decide⟩, _, rfl⟩

/-- `STORE R0, R1` with R1 = IP = 32, the output address, too. -/
theorem witness_StoredWordIsExecutedNext :
    { storing with ip := 32 }.status = .running ∧ storing.budget ≠ some storing.cycles ∧
    { storing with ip := 32 }.readReg 1 = { storing with ip := 32 }.ip ∧ 32 < storing.cfg.memWords ∧
    ∃ t, exec (.store 0 1) { storing with ip := 32 } = .next t :=
  ⟨by decide, by decide, by decide, by decide, _, rfl⟩

/-- The callee wrote a register and moved IP, and left SP and the slot alone. -/
theorem witness_RetReturnsPastTheCall :
    storing.Inv ∧ storing.sp ≠ 0 ∧ ∃ t, exec (.call 63) storing = .next t ∧
      ∃ u : State, u = t.writeReg 5 9 ∧ u.cfg = t.cfg ∧ u.sp = t.sp ∧
        u.mem.read storing.sp.toNat = t.mem.read storing.sp.toNat :=
  ⟨storing_inv, by decide, _, rfl, _, rfl, rfl, rfl, rfl⟩

theorem witness_UnreachedBudgetChangesNothing :
    { storing with budget := none }.budget = none ∧ storing.cycles ≠ 3 ∧
    ∃ t, step { storing with budget := none } = .next t :=
  ⟨by decide, by decide, _, rfl⟩

theorem witness_AssembledWordsAreCanonical : Config.canonical.Valid ∧
    (assemble .canonical .reject "start: MOV R1,5".toList).listing =
      some [{ index := 0, word := 0x1205, source := "start: MOV R1,5".toList }] := by decide

theorem witness_PassesCountTheSameInstructions :
    (assemble .canonical .reject "back: NOP\nJMP back".toList).errors = [] := by decide

end Sys2Proof.Tests
end

section
/-! SUPPORT. The invariant `State.Inv`: the widths of the values that a step writes, one lemma for each named
update of the state that says when the update keeps the invariant, and from these the step (O44). -/

namespace Sys2Proof.Machine

/-! ### Values of `WORD_BITS` bits -/

/-- A truncated value fits in a Word of the profile (R8). -/
theorem trunc_lt {cfg : Config} (h : cfg.wordBits ≤ 16) (v : Word) :
    (cfg.trunc v).toNat < 2 ^ cfg.wordBits := by
  rw [cfg.toNat_trunc h]
  exact Nat.mod_lt _ (Nat.two_pow_pos _)

/-- A literal fits in a Word of every valid profile: its 6 bits are fewer than any `WORD_BITS` (R77). -/
theorem literal_lt {cfg : Config} (h : cfg.Valid) (imm : Imm) :
    (literal imm).toNat < 2 ^ cfg.wordBits := by
  obtain ⟨_, _, hwidth, _, _⟩ := h
  calc (literal imm).toNat = imm.toNat := BitVec.toNat_setWidth_of_le (by decide)
    _ < 2 ^ 6 := imm.isLt
    _ ≤ 2 ^ cfg.wordBits := Nat.pow_le_pow_right (by decide) (by omega)

/-! ### The updates that keep the invariant -/

namespace State.Inv

variable {s : State}

theorem wordBits_le (h : s.Inv) : s.cfg.wordBits ≤ 16 := by
  obtain ⟨_, _, _, hle, _⟩ := h.sizes
  exact hle

/-- Writing a Word of the profile to a register keeps the invariant. -/
theorem writeReg (h : s.Inv) (r : RegIdx) {v : Word} (hv : v.toNat < 2 ^ s.cfg.wordBits) :
    (s.writeReg r v).Inv :=
  { h with
    registersFit := fun q => by
      rw [State.readReg_writeReg]
      split
      · exact hv
      · exact h.registersFit q }

/-- Storing a Word of the profile inside memory keeps the invariant. -/
theorem storeWord (h : s.Inv) {a v : Word} (ha : s.inRange a = true)
    (hv : v.toNat < 2 ^ s.cfg.wordBits) : (s.storeWord a v).Inv :=
  { h with
    memoryForm := s.mem.wf_write _ v h.memoryForm
    memoryRange := s.mem.within_write _ _ v ((s.inRange_iff a).mp ha) h.memoryRange
    cellsFit := fun b => by
      rw [State.storeWord_mem, Memory.read_write]
      split
      · exact hv
      · exact h.cellsFit b }

theorem latch (h : s.Inv) (f : Flags) : (s.latch f).Inv :=
  { h with }

theorem jump (h : s.Inv) {a : Word} (ha : a.toNat < 2 ^ s.cfg.wordBits) : (s.jump a).Inv :=
  { h with ipFits := ha }

theorem port (h : s.Inv) (a v : Word) : (s.port a v).Inv := by
  unfold State.port
  split
  · exact { h with }
  · exact h

/-- A push with room left keeps SP in range, and the depth counts it (R27, R34). -/
theorem pushed (h : s.Inv) (hsp : s.sp ≠ 0) : s.pushed.Inv := by
  have hrange := h.stackRange
  have hdepth := h.depthCounts
  have hsub : (s.sp - 1).toNat = s.sp.toNat - 1 := by bv_omega
  have hpos : 0 < s.sp.toNat := by bv_omega
  exact { h with
    stackRange := by rw [State.pushed_sp, State.pushed_cfg]; omega
    depthCounts := by rw [State.pushed_sp, State.pushed_cfg, State.pushed_depth]; omega }

/-- A pop of a stack that is not empty keeps SP in range, and the depth counts it (R27, R34). -/
theorem popped (h : s.Inv) (hsp : s.sp.toNat < s.cfg.stackTop.toNat) : s.popped.Inv := by
  have hdepth := h.depthCounts
  have hadd : (s.sp + 1).toNat = s.sp.toNat + 1 := by bv_omega
  exact { h with
    stackRange := by rw [State.popped_sp, State.popped_cfg]; omega
    depthCounts := by rw [State.popped_sp, State.popped_cfg, State.popped_depth]; omega }

theorem stopped (h : s.Inv) (c : HaltReason) : (s.stopped c).Inv :=
  { h with }

/-- A cycle that passed the budget check is within the budget (R141, R145). -/
theorem counted (h : s.Inv) (hb : s.budget ≠ some s.cycles) : s.counted.Inv :=
  { h with
    budgetKept := fun b hbudget => by
      have hle : s.cycles ≤ b := h.budgetKept b hbudget
      have hne : s.cycles ≠ b := fun heq => hb (heq ▸ hbudget)
      exact Nat.lt_of_le_of_ne hle hne }

/-- The fetch truncates IP + 1 and takes IR from memory (R142). -/
theorem fetched (h : s.Inv) : s.fetched.Inv :=
  { h with
    ipFits := trunc_lt h.wordBits_le _
    irFits := h.cellsFit _ }

theorem aluInto (h : s.Inv) (d : AluVector) (rd : RegIdx) (y : Word) : (aluInto d rd y s).Inv :=
  (h.writeReg rd (alu_out_lt h.wordBits_le d _ y)).latch _

end State.Inv

/-! ### The execute phase and the step -/

/-- Every instruction keeps the invariant, whatever word it was decoded from. -/
theorem exec_keeps_inv {i : Instr} {s t : State} (hs : s.Inv) (h : exec i s = .next t) : t.Inv := by
  rcases exec_cases h with rfl | ⟨rd, v, _, _, hv, rfl⟩ | ⟨rd, d, y, _, _, rfl⟩ | ⟨target, _, rfl⟩ |
    ⟨target, _, hsp, hslot, rfl⟩ | ⟨_, hsp, rfl⟩ | ⟨rs, ra, _, ha, rfl⟩ | ⟨c, rfl⟩
  · exact hs
  · rcases hv with ⟨imm, rfl⟩ | ⟨a, rfl⟩
    · exact hs.writeReg rd (literal_lt hs.sizes imm)
    · exact hs.writeReg rd (hs.cellsFit _)
  · exact hs.aluInto d rd y
  · exact hs.jump (literal_lt hs.sizes target)
  · have stored := hs.storeWord hslot hs.ipFits
    exact (stored.pushed hsp).jump (literal_lt hs.sizes target)
  · exact (hs.popped hsp).jump (hs.cellsFit _)
  · exact (hs.storeWord ha (hs.registersFit rs)).port _ _
  · exact hs.stopped c

/-- Everything a step that answers a next state can do: the budget ends the run, the fetch ends it, or the
fetched instruction executes (R146, R223). -/
theorem step_cases {s t : State} (h : step s = .next t) :
    (s.status = .running ∧ s.budget = some s.cycles ∧ t = s.stopped .incomplete) ∨
    (s.status = .running ∧ s.budget ≠ some s.cycles ∧ s.ip.toNat < s.cfg.memWords ∧
      exec (decode s.cfg (s.loadWord s.ip)) s.counted.fetched = .next t) ∨
    (s.status = .running ∧ s.budget ≠ some s.cycles ∧ s.cfg.memWords ≤ s.ip.toNat ∧
      t = s.counted.stopped .fetchOutOfRange) := by
  rcases startCycle_cases s with ⟨c, _, e⟩ | ⟨hrun, hb, e⟩ | ⟨hrun, hb, hip, e⟩ | ⟨hrun, hb, hip, e⟩ <;>
    rw [step, e] at h
  · cases h
  · cases h; exact .inl ⟨hrun, hb, rfl⟩
  · exact .inr (.inl ⟨hrun, hb, hip, h⟩)
  · cases h; exact .inr (.inr ⟨hrun, hb, hip, rfl⟩)

/-- Settles O44: the count and the fetch keep the invariant, and then the instruction does. -/
theorem stepKeepsInvariant : Obligations.StepKeepsInvariant := by
  intro s t hs h
  rcases step_cases h with ⟨_, _, rfl⟩ | ⟨_, hb, _, hexec⟩ | ⟨_, hb, _, rfl⟩
  · exact hs.stopped .incomplete
  · exact exec_keeps_inv (hs.counted hb).fetched hexec
  · exact (hs.counted hb).stopped .fetchOutOfRange

end Sys2Proof.Machine
end

section
/-! SUPPORT. The output port: what a STORE in range does, which executions emit, and from these the output
address (O37). -/

namespace Sys2Proof.Machine

/-- The character of a STORE is the stored value mod 256 (R53, R58). -/
theorem toNat_lowByte (v : Word) : (lowByte v).toNat = v.toNat % 256 := by
  simp [lowByte, BitVec.extractLsb'_toNat]

/-- A state whose memory is that of `s` after one word write meets the whole frame of that write. -/
theorem State.onlyWord_of_mem_eq_write {s t : State} {a : Nat} {v : Word} (h : t.mem = s.mem.write a v) :
    s.OnlyWord t a v := by
  unfold State.OnlyWord
  rw [h]
  exact ⟨s.mem.read_write_same a v, fun _ hb => s.mem.read_write_other v hb,
    fun _ h0 h1 => s.mem.getByte_write_other a v h0 h1⟩

/-- A write to the output address emits the low byte of the value (R58). -/
theorem State.port_mmioOutAddr {s : State} {a : Word} (h : a = s.cfg.mmioOutAddr) (v : Word) :
    s.port a v = s.emit (lowByte v) :=
  if_pos h

/-- A STORE inside memory writes the word and then serves the port (R200). -/
theorem exec_store_of_inRange (rs : RegIdx) {ra : RegIdx} {s : State}
    (h : (s.readReg ra).toNat < s.cfg.memWords) :
    exec (.store rs ra) s =
      .next ((s.storeWord (s.readReg ra) (s.readReg rs)).port (s.readReg ra) (s.readReg rs)) := by
  rcases execStore_cases rs ra s with ⟨_, runs⟩ | ⟨outside, _⟩
  · exact runs
  · rw [(s.inRange_iff _).mpr h] at outside
    cases outside

/-- An execution keeps the output, or it is a STORE to the output address and appends the low byte of the
stored value (R58, R67). CALL's push is a write to memory that does not pass the port (R60). -/
theorem exec_out_cases {i : Instr} {s t : State} (h : exec i s = .next t) :
    t.out = s.out ∨
    ∃ rs ra, i = .store rs ra ∧ s.readReg ra = s.cfg.mmioOutAddr ∧
      t.out = s.out ++ [lowByte (s.readReg rs)] := by
  rcases exec_cases h with rfl | ⟨rd, v, _, _, _, rfl⟩ | ⟨rd, d, y, _, _, rfl⟩ | ⟨target, _, rfl⟩ |
    ⟨target, _, _, _, rfl⟩ | ⟨_, _, rfl⟩ | ⟨rs, ra, hi, _, rfl⟩ | ⟨c, rfl⟩
  · exact .inl rfl
  · exact .inl rfl
  · exact .inl rfl
  · exact .inl rfl
  · exact .inl rfl
  · exact .inl rfl
  · by_cases hport : s.readReg ra = s.cfg.mmioOutAddr
    · exact .inr ⟨rs, ra, hi, hport, by simp [hport]⟩
    · exact .inl (by simp [hport])
  · exact .inl rfl

/-- Settles O37: at the output address the port of a STORE is one `emit`, and no other execution emits. -/
theorem storeToPortEmitsLowByte : Obligations.StoreToPortEmitsLowByte := by
  refine ⟨rfl, fun rs ra s hrange hport => ?_, fun i s t hexec hout => ?_⟩
  · have emits := State.port_mmioOutAddr (s := s.storeWord (s.readReg ra) (s.readReg rs)) hport (s.readReg rs)
    have runs := exec_store_of_inRange rs hrange
    rw [emits] at runs
    exact ⟨_, lowByte (s.readReg rs), runs, rfl, toNat_lowByte _, State.onlyWord_of_mem_eq_write rfl⟩
  · rcases exec_out_cases hexec with kept | ⟨rs, ra, hi, hport, _⟩
    · exact absurd kept hout
    · exact ⟨rs, ra, hi, hport⟩

end Sys2Proof.Machine
end

section
/-! SUPPORT. The codec in arithmetic: a packed word is the sum of its fields' values at their places, and
`unpack` reads a field by division; from these the bit ranges of R73 and the masking of R72. -/

namespace Sys2Proof

/-! ### One field above the rest of a word -/

/-- A field shifted to place `k`, over a rest that ends below `k`, adds its value times `2 ^ k`. -/
theorem toNat_field_or {n k : Nat} (hfit : n + k ≤ 16) (x : BitVec n) {rest : Word}
    (hrest : rest.toNat < 2 ^ k) :
    (x.setWidth 16 <<< k ||| rest).toNat = x.toNat * 2 ^ k + rest.toNat := by
  have hx : x.toNat * 2 ^ k < 2 ^ 16 := calc
    x.toNat * 2 ^ k < 2 ^ n * 2 ^ k := Nat.mul_lt_mul_of_pos_right x.isLt (by positivity)
    _ = 2 ^ (n + k) := (Nat.pow_add 2 n k).symm
    _ ≤ 2 ^ 16 := Nat.pow_le_pow_right (by decide) hfit
  have hplaced : (x.setWidth 16 <<< k).toNat = x.toNat <<< k := by
    rw [BitVec.toNat_shiftLeft, BitVec.toNat_setWidth_of_le (by omega),
      Nat.shiftLeft_eq, Nat.mod_eq_of_lt hx]
  rw [BitVec.toNat_or, hplaced, ← Nat.shiftLeft_add_eq_or_of_lt hrest, Nat.shiftLeft_eq]

/-- A field at place `k` and the rest below it end below bit `n + k`: the next field goes there. -/
theorem toNat_field_or_lt {n k : Nat} (hfit : n + k ≤ 16) (x : BitVec n) {rest : Word}
    (hrest : rest.toNat < 2 ^ k) : (x.setWidth 16 <<< k ||| rest).toNat < 2 ^ (n + k) := by
  rw [toNat_field_or hfit x hrest]
  calc x.toNat * 2 ^ k + rest.toNat < (x.toNat + 1) * 2 ^ k := by rw [Nat.succ_mul]; omega
    _ ≤ 2 ^ n * 2 ^ k := Nat.mul_le_mul_right _ x.isLt
    _ = 2 ^ (n + k) := (Nat.pow_add 2 n k).symm

/-! ### The codec at the widths of R6 -/

/-- A packed word is the sum of its fields' values at bits 12, 9, 6 and 0 (R71). -/
theorem toNat_pack {cfg : Config} (h : cfg.SourceWidths) (f : Fields) :
    (pack cfg f).toNat = f.op.toNat * 4096 + f.r1.toNat * 512 + f.r2.toNat * 64 + f.imm.toNat := by
  obtain ⟨hword, _, himm⟩ := h
  have immValue : (f.imm.setWidth 16).toNat = f.imm.toNat := BitVec.toNat_setWidth_of_le (by decide)
  have immLt : (f.imm.setWidth 16).toNat < 2 ^ 6 := immValue ▸ f.imm.isLt
  have r2Lt := toNat_field_or_lt (by decide) f.r2 immLt
  have r1Lt := toNat_field_or_lt (by decide) f.r1 r2Lt
  rw [pack, opPlace_eq hword, r1Place_eq hword, r2Place_eq hword, cfg.maskImm_eq_self himm,
    BitVec.or_assoc, BitVec.or_assoc, toNat_field_or (by decide) f.op r1Lt,
    toNat_field_or (by decide) f.r1 r2Lt, toNat_field_or (by decide) f.r2 immLt, immValue]
  omega

/-- Masking an integer to `n` bits of two's complement keeps it mod `2 ^ n`, negative or not (R72). -/
theorem natCast_toNat_ofInt (n : Nat) (i : Int) : ((BitVec.ofInt n i).toNat : Int) = i % 2 ^ n := by
  rw [BitVec.toNat_ofInt, Int.toNat_of_nonneg (Int.emod_nonneg _ (by positivity)), Nat.cast_pow,
    Nat.cast_ofNat]

/-- A field of `n` bits at place `k` is the word divided by `2 ^ k`, mod `2 ^ n`. -/
theorem toNat_field (w : Word) (k n : Nat) : (w.extractLsb' k n).toNat = w.toNat / 2 ^ k % 2 ^ n := by
  rw [BitVec.extractLsb'_toNat, Nat.shiftRight_eq_div_pow]

/-- Settles O2: packing adds up the fields, and each field is its integer masked. -/
theorem packMasksAnyIntegers : Obligations.PackMasksAnyIntegers := by
  intro cfg op r1 r2 imm h
  rw [packInts, toNat_pack h]
  push_cast [natCast_toNat_ofInt]
  rfl

/-- Settles O1: each field is read at its place, and a word divided by 4096 fits in the 4 bits of `op`. -/
theorem fieldsAreBitRanges : Obligations.FieldsAreBitRanges := by
  rintro cfg w ⟨hword, _, himm⟩
  have opFits : w.toNat / 4096 < 16 := Nat.div_lt_of_lt_mul w.isLt
  refine ⟨?op, ?r1, ?r2, ?imm⟩
  case op => rw [unpack, opPlace_eq hword, toNat_field]; exact Nat.mod_eq_of_lt opFits
  case r1 => rw [unpack, r1Place_eq hword]; exact toNat_field w 9 3
  case r2 => rw [unpack, r2Place_eq hword]; exact toNat_field w 6 3
  case imm => rw [unpack, cfg.maskImm_eq_self himm, toNat_field, Nat.pow_zero, Nat.div_one]; rfl

end Sys2Proof
end

section
/-! SUPPORT. The two flags of the ALU that depend on its output alone (R113). -/

namespace Sys2Proof.Machine

/-- The sign bit of a Word of 16 bits is its bit 15 (R113). -/
theorem negativeFlag_eq_getLsbD (out : Word) : negativeFlag out = out.getLsbD 15 := by
  rw [negativeFlag_eq, BitVec.msb_eq_getLsbD_last]

/-- Settles O10: with 16-bit Words both flags are computed from the answered output, whatever operation the
vector names. -/
theorem zeroAndNegativeFollowOutput : Obligations.ZeroAndNegativeFollowOutput := by
  intro cfg d x y hword
  rw [alu_eq_aluOf hword]
  refine ⟨?zr, ?ng⟩
  case zr => rw [aluOf_zr, zeroFlag_iff, aluOf_out]
  case ng => rw [aluOf_ng, negativeFlag_eq_getLsbD, aluOf_out]

end Sys2Proof.Machine
end

section
/-! SUPPORT. The two fatal conditions of the stack: when CALL and RET raise, and from these O30 and O32. -/

namespace Sys2Proof.Machine

/-- The whole effect of a fatal condition is the status (R9, R210). -/
theorem raise_eq_next_halted (c : HaltReason) (s : State) :
    raise c s = .next { s with status := .halted c } :=
  rfl

/-- A CALL with no free slot left raises before it pushes (R182, R213). -/
theorem exec_call_of_sp_eq_zero (target : Imm) {s : State} (h : s.sp = 0) :
    exec (.call target) s = raise .stackOverflow s :=
  if_pos h

/-- A RET of an empty stack raises before it moves SP (R183, R214). -/
theorem exec_ret_of_stackTop_le_sp {s : State} (h : s.cfg.stackTop.toNat ≤ s.sp.toNat) :
    exec .ret s = raise .stackUnderflow s :=
  if_pos h

/-- Settles O30: with SP = 0 the CALL takes its overflow branch, and raising writes the status alone. -/
theorem callOverflowsAtZero : Obligations.CallOverflowsAtZero := by
  intro target s hfull
  rw [exec_call_of_sp_eq_zero target hfull, raise_eq_next_halted]

/-- Settles O32: with SP at STACK_TOP or above the RET takes its underflow branch, and raising writes the
status alone. -/
theorem retUnderflowsAtTop : Obligations.RetUnderflowsAtTop := by
  intro s htop
  rw [exec_ret_of_stackTop_le_sp htop, raise_eq_next_halted]

end Sys2Proof.Machine
end

section
/-! SUPPORT. The codec and the decoder at every width: `unpack` gives back the fields that `pack` put in place,
the opcode map and the canonical fields undo each other on the forms a profile has, and every word decodes to a
well-formed instruction. From these O3 to O7. -/

namespace Sys2Proof

/-! ### A field in its place, and beside the others -/

/-- Reading a field where it was placed gives it back. -/
theorem extractLsb'_field_same {n k : Nat} (hfit : n + k ≤ 16) (x : BitVec n) :
    (x.setWidth 16 <<< k).extractLsb' k n = x := by
  ext i hi
  simp [show k + i < 16 by omega, BitVec.getLsbD_eq_getElem hi]

/-- A field placed beside the bits that are read contributes nothing to them. -/
theorem extractLsb'_field_other {n k n' k' : Nat} (h : n + k ≤ k' ∨ n' + k' ≤ k) (x : BitVec n) :
    (x.setWidth 16 <<< k).extractLsb' k' n' = 0 := by
  ext i hi
  rcases h with above | below
  · simp [BitVec.getLsbD_of_ge x (k' + i - k) (by omega)]
  · simp [show k' + i < k by omega]

/-- A masked immediate is a field of `IMM_BITS` bits at bit 0. -/
theorem maskImm_setWidth_eq_field {cfg : Config} (h : cfg.immBits ≤ 6) (v : Imm) :
    (cfg.maskImm v).setWidth 16 = (v.setWidth cfg.immBits).setWidth 16 <<< 0 := by
  rw [Config.maskImm, BitVec.shiftLeft_zero, BitVec.setWidth_setWidth (by omega)]

/-- Masking the low 6 bits of a word reads the low `IMM_BITS` of it. -/
theorem maskImm_extractLsb' {cfg : Config} (h : cfg.immBits ≤ 6) (w : Word) :
    cfg.maskImm (w.extractLsb' 0 6) = (w.extractLsb' 0 cfg.immBits).setWidth 6 := by
  rw [Config.maskImm]
  congr 1
  ext i hi
  simp [show i < 6 by omega]

/-- An immediate of `IMM_BITS` bits is its own mask. -/
theorem maskImm_of_lt {cfg : Config} (h : cfg.immBits ≤ 6) {v : Imm} (hv : v.toNat < 2 ^ cfg.immBits) :
    cfg.maskImm v = v :=
  BitVec.eq_of_toNat_eq (by rw [cfg.toNat_maskImm h, Nat.mod_eq_of_lt hv])

theorem toNat_maskImm_lt {cfg : Config} (h : cfg.immBits ≤ 6) (v : Imm) :
    (cfg.maskImm v).toNat < 2 ^ cfg.immBits := by
  rw [cfg.toNat_maskImm h]
  exact Nat.mod_lt _ (Nat.two_pow_pos _)

@[simp] theorem maskImm_zero (cfg : Config) : cfg.maskImm 0 = 0 := by
  simp [Config.maskImm]

/-- The immediate of a valid profile fits in its field of 6 bits (R71, log 22). -/
theorem immBits_le_of_valid {cfg : Config} (h : cfg.Valid) : cfg.immBits ≤ 6 := by
  obtain ⟨_, _, hplace, hword, _⟩ := h
  omega

/-! ### The codec -/

/-- The codec gives back what it packed, with the immediate masked (R72, R75). -/
theorem unpack_pack {cfg : Config} (hplace : 10 + cfg.immBits ≤ cfg.wordBits) (hword : cfg.wordBits ≤ 16)
    (f : Fields) : unpack cfg (pack cfg f) = { f with imm := cfg.maskImm f.imm } := by
  have himm : cfg.immBits ≤ 6 := by omega
  have asFields := maskImm_setWidth_eq_field himm f.imm
  simp only [unpack, maskImm_extractLsb' himm]
  simp only [pack, asFields, BitVec.extractLsb'_or, opPlace, r1Place, r2Place,
    Fields.mk.injEq]
  refine ⟨?op, ?r1, ?r2, ?imm⟩
  case op =>
    rw [extractLsb'_field_same (by omega), extractLsb'_field_other (by omega) f.r1,
      extractLsb'_field_other (by omega) f.r2, extractLsb'_field_other (by omega) (f.imm.setWidth _)]
    simp
  case r1 =>
    rw [extractLsb'_field_other (by omega) f.op, extractLsb'_field_same (by omega),
      extractLsb'_field_other (by omega) f.r2, extractLsb'_field_other (by omega) (f.imm.setWidth _)]
    simp
  case r2 =>
    rw [extractLsb'_field_other (by omega) f.op, extractLsb'_field_other (by omega) f.r1,
      extractLsb'_field_same (by omega), extractLsb'_field_other (by omega) (f.imm.setWidth _)]
    simp
  case imm =>
    rw [extractLsb'_field_other (by omega) f.op, extractLsb'_field_other (by omega) f.r1,
      extractLsb'_field_other (by omega) f.r2, extractLsb'_field_same (by omega)]
    simp [Config.maskImm]

/-- At the widths of R6 nothing is masked away. -/
theorem unpack_pack_eq_self {cfg : Config} (h : cfg.SourceWidths) (f : Fields) :
    unpack cfg (pack cfg f) = f := by
  obtain ⟨hword, _, himm⟩ := h
  rw [unpack_pack (by omega) (by omega), cfg.maskImm_eq_self himm]

/-- At the widths of R6 the four fields are the whole word. -/
theorem pack_unpack {cfg : Config} (h : cfg.SourceWidths) (w : Word) : pack cfg (unpack cfg w) = w := by
  obtain ⟨hop, hr1, hr2, himm⟩ := fieldsAreBitRanges cfg w h
  apply BitVec.eq_of_toNat_eq
  rw [toNat_pack h, hop, hr1, hr2, himm]
  omega

/-- Settles O3: (a) and (b) are the two inverses, and (c) is (a) on fields that mask their integers. -/
theorem codecRoundTrips : Obligations.CodecRoundTrips := by
  intro cfg h
  refine ⟨unpack_pack_eq_self h, pack_unpack h, fun op r1 r2 imm => ?_⟩
  rw [packInts, unpack_pack_eq_self h]
  exact ⟨natCast_toNat_ofInt 4 op, natCast_toNat_ofInt 3 r1, natCast_toNat_ofInt 3 r2,
    natCast_toNat_ofInt 6 imm⟩

/-! ### The opcode map -/

@[simp] theorem takesImmediate_iff (cfg : Config) (r2 : RegIdx) :
    takesImmediate cfg r2 = true ↔ cfg.addOperandProfile = .immOnly ∨ r2 = cfg.immSelector := by
  simp [takesImmediate]

/-- A profile has a register form of ADD and SUB exactly where the literal form is not taken (R80, R81). -/
theorem registerFormOk_iff (cfg : Config) (r : RegIdx) :
    registerFormOk cfg r = true ↔ ¬ takesImmediate cfg r = true := by
  cases h : cfg.addOperandProfile <;> simp [registerFormOk, h]

/-- The `r2` field of the canonical word of a literal form selects the literal (R94). -/
theorem takesImmediate_selectorField (cfg : Config) : takesImmediate cfg (selectorField cfg) = true := by
  cases h : cfg.addOperandProfile <;> simp [selectorField, h]

/-- With 8 registers the decoder is the opcode map. -/
theorem instrOf_eq_mappedInstr {cfg : Config} (h : cfg.nregs = 8) (f : Fields) :
    instrOf cfg f = mappedInstr cfg f := by
  rw [instrOf, if_pos (Instr.registersExist_eq_true h _)]

/-- At the widths of R6 a packed word decodes as its fields say. -/
theorem decode_pack {cfg : Config} (h : cfg.SourceWidths) (f : Fields) :
    decode cfg (pack cfg f) = mappedInstr cfg f := by
  have ⟨_, hregs, _⟩ := h
  rw [decode, unpack_pack_eq_self h, instrOf_eq_mappedInstr hregs]

/-- Settles O4: the decoder is the opcode map, read opcode by opcode. -/
theorem decoderFollowsOpcodeMap : Obligations.DecoderFollowsOpcodeMap := by
  intro cfg r1 r2 imm h
  simp only [decode_pack h, ← takesImmediate_iff]
  exact ⟨rfl, rfl, rfl, rfl, rfl, rfl, rfl, rfl, rfl, rfl, rfl, rfl, rfl, rfl, rfl, rfl⟩

/-- The opcode map undoes the canonical fields of every form that the profile has (R79, R94). -/
theorem mappedInstr_fields {cfg : Config} {i : Instr} (h : i.formOk cfg = true) :
    mappedInstr cfg (i.fields cfg) = i := by
  cases i with
  | addImm rd imm => exact if_pos (takesImmediate_selectorField cfg)
  | subImm rd imm => exact if_pos (takesImmediate_selectorField cfg)
  | addReg rd rs => exact if_neg ((registerFormOk_iff cfg rs).mp h)
  | subReg rd rs => exact if_neg ((registerFormOk_iff cfg rs).mp h)
  | load rd ra => exact if_pos h
  | store rs ra => exact if_pos h
  | _ => rfl

/-- The map gives only forms that the profile has (R80, R81, R84): opcodes 2 and 3 choose between their two forms,
13 and 14 ask for `EXTENDED`, and the others have one form in every profile. -/
theorem mappedInstr_formOk (cfg : Config) (f : Fields) : (mappedInstr cfg f).formOk cfg = true := by
  unfold mappedInstr
  split
  case h_3 | h_4 =>
    split
    · rfl
    · next notImmediate => exact (registerFormOk_iff cfg f.r2).mpr notImmediate
  case h_14 | h_15 =>
    split
    · next extended => exact extended
    · rfl
  all_goals rfl

/-- The only literal in an instruction of the map is the immediate field (R78). -/
theorem eq_imm_of_mem_literals_mappedInstr {cfg : Config} {f : Fields} {v : Imm}
    (h : v ∈ (mappedInstr cfg f).literals) : v = f.imm := by
  revert h
  unfold mappedInstr
  split
  case h_3 | h_4 | h_14 | h_15 => split <;> simp [Instr.literals]
  all_goals simp [Instr.literals]

/-! ### Decoding, encoding and well-formedness -/

theorem Instr.wellFormed_iff {cfg : Config} {i : Instr} : i.wellFormed cfg = true ↔
    i.formOk cfg = true ∧ i.registersExist cfg = true ∧ i.literalsFit cfg = true := by
  simp [Instr.wellFormed, and_assoc]

theorem Instr.literalsFit_iff {cfg : Config} {i : Instr} :
    i.literalsFit cfg = true ↔ ∀ v ∈ i.literals, v.toNat < 2 ^ cfg.immBits := by
  simp [Instr.literalsFit]

/-- The immediate field of a canonical word is the instruction's literal, or 0 (R94). -/
theorem Instr.fields_imm (cfg : Config) (i : Instr) :
    (i.fields cfg).imm ∈ i.literals ∨ (i.fields cfg).imm = 0 := by
  cases i <;> simp [Instr.fields, Instr.literals]

/-- Masking keeps the canonical fields of an instruction whose literal fits. -/
theorem maskImm_fields {cfg : Config} (h : cfg.immBits ≤ 6) {i : Instr} (hfit : i.literalsFit cfg = true) :
    cfg.maskImm (i.fields cfg).imm = (i.fields cfg).imm := by
  rcases i.fields_imm cfg with literal | zero
  · exact maskImm_of_lt h (Instr.literalsFit_iff.mp hfit _ literal)
  · rw [zero, maskImm_zero]

/-- Settles O5: the codec gives the canonical fields back, and the opcode map undoes them. -/
theorem decodeInvertsEncode : Obligations.DecodeInvertsEncode := by
  intro cfg i hvalid hwf
  have himm := immBits_le_of_valid hvalid
  obtain ⟨_, _, hplace, hword, _⟩ := hvalid
  obtain ⟨hform, hregs, hfit⟩ := Instr.wellFormed_iff.mp hwf
  have fieldsBack : unpack cfg (encode cfg i) = i.fields cfg := by
    rw [encode, unpack_pack hplace hword, maskImm_fields himm hfit]
  rw [decode, fieldsBack, instrOf, mappedInstr_fields hform, if_pos hregs]

/-- What any word decodes to is a term of the profile: absent registers are refused and the immediate is
masked (R76, R86). -/
theorem decode_wellFormed {cfg : Config} (h : cfg.immBits ≤ 6) (w : Word) :
    (decode cfg w).wellFormed cfg = true := by
  unfold decode instrOf
  split
  · next registersExist =>
    have literalsFit : (mappedInstr cfg (unpack cfg w)).literalsFit cfg = true :=
      Instr.literalsFit_iff.mpr fun v hv => by
        rw [eq_imm_of_mem_literals_mappedInstr hv]
        exact toNat_maskImm_lt h _
    exact Instr.wellFormed_iff.mpr ⟨mappedInstr_formOk cfg _, registersExist, literalsFit⟩
  · rfl

/-- Settles O6: a decoded instruction is well-formed, and O5 decodes its canonical word. -/
theorem everyWordDecodesWellFormed : Obligations.EveryWordDecodesWellFormed := by
  intro cfg w hvalid
  have hwf := decode_wellFormed (immBits_le_of_valid hvalid) w
  exact ⟨hwf, decodeInvertsEncode cfg _ hvalid hwf⟩

/-- Settles O7: each word is written out, and the decoder computes. -/
theorem decodesWrittenOutWords : Obligations.DecodesWrittenOutWords := by
  unfold Obligations.DecodesWrittenOutWords
  decide

end Sys2Proof
end

section
/-! SUPPORT. The ALU: the rows of the function table, its two kinds of sums with their carries and overflows, the
product and the quotient. From these O8, O9 and O11 to O16. -/

namespace Sys2Proof.Machine

/-! ### Rows and vectors -/

/-- With 16-bit Words the output is the table's, for the operation that the vector names. -/
theorem alu_out {cfg : Config} (h : cfg.wordBits = 16) (d : AluVector) (x y : Word) :
    (alu cfg d x y).out = (AluOp.ofVector d).out cfg x y := by
  rw [alu_eq_aluOf h, aluOf_out]

/-- A difference of Words is the difference of integers mod 2^16. -/
theorem toNat_sub_eq_emod (a b : Word) : ((a - b).toNat : Int) = ((a.toNat : Int) - b.toNat) % 65536 := by
  bv_omega

/-- Settles O8: each row of the table is an operation of 16-bit vectors, read in integers or bit by bit. -/
theorem aluOutputsFollowTable : Obligations.AluOutputsFollowTable := by
  intro cfg x y h
  simp only [alu_out h]
  refine ⟨rfl, rfl, rfl, rfl, rfl, BitVec.toNat_not, BitVec.toNat_not, ?negX, ?negY, BitVec.toNat_add x 1,
    BitVec.toNat_add y 1, ?decX, ?decY, BitVec.toNat_add x y, ?subXY, ?subYX,
    fun _ _ => BitVec.getLsbD_and, fun _ _ => BitVec.getLsbD_or, BitVec.toNat_mul x y⟩
  case negX => exact toNat_sub_eq_emod 0 x
  case negY => exact toNat_sub_eq_emod 0 y
  case decX => exact toNat_sub_eq_emod x 1
  case decY => exact toNat_sub_eq_emod y 1
  case subXY => exact toNat_sub_eq_emod x y
  case subYX => exact toNat_sub_eq_emod y x

/-- The 20 vectors of the table are the ones that name an operation (R112). -/
theorem ofVector_eq_undefined_iff (d : AluVector) :
    AluOp.ofVector d = .undefined ↔ d ∉ aluTable.map Prod.fst := by
  revert d
  decide

/-- Settles O9: a vector of the table names an operation, and the undefined operation answers 0 at every
width. -/
theorem undefinedVectorsGiveZero : Obligations.UndefinedVectorsGiveZero := by
  intro cfg d x y
  split
  · next listed =>
    have named : AluOp.ofVector d ≠ .undefined := fun e => (ofVector_eq_undefined_iff d).mp e listed
    exact beq_false_of_ne named
  · next unlisted =>
    have undefined : AluOp.ofVector d = .undefined := (ofVector_eq_undefined_iff d).mpr unlisted
    simp [alu, undefined, aluOf, AluResult.toWord, AluOp.out, AluOp.kind, zeroFlag, negativeFlag, overflowFlag,
      carryFlag]

/-! ### The preprocessing datapath -/

/-- With all of an operand's bits set, AND gives the other one: how the datapath passes an operand on. -/
theorem and_not_zero (a : Word) : a &&& ~~~0 = a ∧ ~~~0 &&& a = a :=
  ⟨BitVec.and_allOnes, BitVec.allOnes_and⟩

/-- All bits set is -1: how the datapath decrements. -/
theorem add_not_zero (a : Word) : a + ~~~0 = a - 1 ∧ ~~~0 + a = a - 1 := by
  constructor <;> bv_omega

/-- Complementing a sum with one complemented operand subtracts: how the datapath makes its differences. -/
theorem not_not_add (a b : Word) : ~~~(~~~a + b) = a - b ∧ ~~~(b + ~~~a) = a - b := by
  constructor <;> bv_omega

/-- Complementing a decrement negates. -/
theorem not_add_not_zero (a : Word) : ~~~(a + ~~~0) = 0 - a ∧ ~~~(~~~0 + a) = 0 - a := by
  constructor <;> bv_omega

/-- Complementing a decremented complement increments. -/
theorem not_not_add_not_zero (a : Word) : ~~~(~~~a + ~~~0) = a + 1 ∧ ~~~(~~~0 + ~~~a) = a + 1 := by
  constructor <;> bv_omega

/-- Complementing a conjunction of complements is a disjunction: how the datapath makes OR. -/
theorem not_not_and_not (a b : Word) : ~~~(~~~a &&& ~~~b) = a ||| b := by
  rw [BitVec.not_and, BitVec.not_not, BitVec.not_not]

/-- Settles O11: on each row the six control bits select an expression of the datapath, and the laws above turn
it into the table's. -/
theorem datapathGivesTheTable : Obligations.DatapathGivesTheTable := by
  intro cfg x y h
  obtain ⟨passX, passX'⟩ := and_not_zero x
  obtain ⟨passY, passY'⟩ := and_not_zero y
  refine ⟨?rows, by simp [datapath], by simp [datapath]⟩
  simp only [List.forall_mem_cons, alu_out h]
  refine ⟨?zero, ?one, ?minusOne, ?x, ?y, ?notX, ?notY, ?negX, ?negY, ?incX, ?incY, ?decX, ?decY, rfl, ?subXY,
    ?subYX, rfl, ?or, by simp⟩
  case zero => exact (by decide : (0 : Word) = 0 + 0)
  case one => exact (by decide : (1 : Word) = ~~~(~~~0 + ~~~0))
  case minusOne => exact (by decide : BitVec.allOnes 16 = ~~~0 + 0)
  case x => exact passX.symm
  case y => exact passY'.symm
  case notX => exact congrArg (~~~ ·) passX.symm
  case notY => exact congrArg (~~~ ·) passY'.symm
  case negX => exact (not_add_not_zero x).1.symm
  case negY => exact (not_add_not_zero y).2.symm
  case incX => exact (not_not_add_not_zero x).1.symm
  case incY => exact (not_not_add_not_zero y).2.symm
  case decX => exact (add_not_zero x).1.symm
  case decY => exact (add_not_zero y).2.symm
  case subXY => exact (not_not_add x y).1.symm
  case subYX => exact (not_not_add y x).2.symm
  case or => exact (not_not_and_not x y).symm

/-! ### Sums and the carry chain -/

/-- The output of a row of the add kind is the sum of the operands that the kind names (R114, R115). -/
theorem out_of_kind_add {op : AluOp} {x y a b : Word} (cfg : Config) (h : op.kind x y = .add a b) :
    op.out cfg x y = a + b := by
  cases op <;> cases h <;> rfl

/-- The output of a row of the sub kind is the difference (R114, R116). -/
theorem out_of_kind_sub {op : AluOp} {x y a b : Word} (cfg : Config) (h : op.kind x y = .sub a b) :
    op.out cfg x y = a - b := by
  cases op <;> cases h <;> rfl

/-- The chain of R115 carries what the sum of the low bits carries. -/
theorem carryChain_eq_carry (a b : Word) (i : Nat) : carryChain a b i = BitVec.carry i a b false := by
  induction i with
  | zero => simp [carryChain]
  | succ i ih => rw [carryChain, BitVec.carry_succ, ih, Bool.atLeastTwo]

/-- The last carry says that the exact sum does not fit (R115). -/
theorem carryChain_last (a b : Word) : carryChain a b 16 = addCarry a b := by
  rw [carryChain_eq_carry, BitVec.carry, addCarry, Nat.mod_eq_of_lt a.isLt, Nat.mod_eq_of_lt b.isLt]
  simp

/-- A signed sum overflows when the carries into and out of the sign bit differ (R115). -/
theorem addOverflow_eq_carries (a b : Word) :
    addOverflow a b (a + b) = (carryChain a b 16 ^^ carryChain a b 15) := by
  have into : (a + b).msb = (a.msb ^^ (b.msb ^^ carryChain a b 15)) := by
    rw [BitVec.msb_add, carryChain_eq_carry]
  have outOf : carryChain a b 16 =
      ((a.msb && b.msb) || (a.msb && carryChain a b 15) || (b.msb && carryChain a b 15)) := by
    rw [carryChain, BitVec.msb_eq_getLsbD_last, BitVec.msb_eq_getLsbD_last]
  rw [addOverflow, into, outOf]
  cases a.msb <;> cases b.msb <;> cases carryChain a b 15 <;> rfl

/-- Under `Borrow` the last carry of the chain `~a + b` says that the subtraction borrows (R116). -/
theorem carryChain_not_last (a b : Word) : carryChain (~~~a) b 16 = decide (a.toNat < b.toNat) := by
  have ha := a.isLt
  rw [carryChain_last, addCarry, BitVec.toNat_not, decide_eq_decide]
  omega

theorem addOverflow_iff_exact (a b : Word) :
    addOverflow a b (a + b) = true ↔ a.toInt + b.toInt < -32768 ∨ 32767 < a.toInt + b.toInt := by
  have signRule : addOverflow a b (a + b) = BitVec.saddOverflow a b := by
    rw [BitVec.saddOverflow_eq]; rfl
  rw [signRule]
  simp [BitVec.saddOverflow]
  omega

theorem subOverflow_iff_exact (a b : Word) :
    subOverflow a b (a - b) = true ↔ a.toInt - b.toInt < -32768 ∨ 32767 < a.toInt - b.toInt := by
  have signRule : subOverflow a b (a - b) = BitVec.ssubOverflow a b := by
    rw [BitVec.ssubOverflow_eq, subOverflow]
    cases a.msb <;> cases b.msb <;> cases (a - b).msb <;> rfl
  rw [signRule]
  simp [BitVec.ssubOverflow]
  omega

/-- The three answers of the ALU on a row of the add kind. -/
theorem alu_of_kind_add {cfg : Config} (h : cfg.wordBits = 16) {d : AluVector} {x y a b : Word}
    (hkind : (AluOp.ofVector d).kind x y = .add a b) :
    (alu cfg d x y).out = a + b ∧ (alu cfg d x y).cy = addCarry a b ∧
      (alu cfg d x y).ov = addOverflow a b (a + b) := by
  have out := out_of_kind_add cfg hkind
  simp [alu_eq_aluOf h, hkind, out, carryFlag, overflowFlag]

/-- The three answers of the ALU on a row of the sub kind. -/
theorem alu_of_kind_sub {cfg : Config} (h : cfg.wordBits = 16) {d : AluVector} {x y a b : Word}
    (hkind : (AluOp.ofVector d).kind x y = .sub a b) :
    (alu cfg d x y).out = a - b ∧ (alu cfg d x y).cy = subCarry cfg.subCarryConvention a b ∧
      (alu cfg d x y).ov = subOverflow a b (a - b) := by
  have out := out_of_kind_sub cfg hkind
  simp [alu_eq_aluOf h, hkind, out, carryFlag, overflowFlag]

/-- Settles O12: the bits of the sum, its carry and its overflow are those of the chain. -/
theorem additionIsTheCarryChain : Obligations.AdditionIsTheCarryChain := by
  intro cfg d x y a b h hkind
  obtain ⟨out, cy, ov⟩ := alu_of_kind_add h hkind
  rw [out, cy, ov]
  refine ⟨fun i hi => ?bits, (carryChain_last a b).symm, addCarry_iff a b, addOverflow_iff a b _,
    addOverflow_eq_carries a b⟩
  rw [BitVec.getLsbD_add hi, carryChain_eq_carry, Bool.xor_assoc]

/-- Settles O13: the difference, and the borrow as the chain's carry under one convention and its complement
under the other. -/
theorem subtractionBorrows : Obligations.SubtractionBorrows := by
  intro cfg d x y a b h hkind
  obtain ⟨out, cy, ov⟩ := alu_of_kind_sub h hkind
  rw [out, cy, ov]
  refine ⟨toNat_sub_eq_emod a b, subOverflow_iff a b _, subCarry_iff _ a b, ?chain⟩
  rw [carryChain_not_last]
  cases cfg.subCarryConvention <;> simp [subCarry, ← decide_not]

/-- Settles O14: on 16 bits the sign rules say exactly that the signed result does not fit. -/
theorem overflowIsExactSignedOverflow : Obligations.OverflowIsExactSignedOverflow := by
  intro cfg d x y a b h
  refine ⟨fun hkind => ?add, fun hkind => ?sub⟩
  case add =>
    obtain ⟨_, _, ov⟩ := alu_of_kind_add h hkind
    rw [ov, addOverflow_iff_exact]
  case sub =>
    obtain ⟨_, _, ov⟩ := alu_of_kind_sub h hkind
    rw [ov, subOverflow_iff_exact]

/-! ### Product and quotient -/

/-- Settles O15: both flags of the product are its overflow. -/
theorem productAndItsFlags : Obligations.ProductAndItsFlags := by
  intro cfg x y h
  rw [alu_eq_aluOf h]
  exact ⟨BitVec.toNat_mul x y, rfl, mulOverflow_iff _ x y⟩

/-- Dividing by 0 gives 0 under either signedness (R119, R120). -/
theorem quotient_zero (sign : Signedness) (x : Word) : quotient sign x 0 = 0 :=
  if_pos rfl

/-- The unsigned quotient by a divisor that is not 0 is rounded down (R119). -/
theorem toNat_quotient_unsigned (x : Word) {y : Word} (hy : y ≠ 0) :
    (quotient .unsigned x y).toNat = x.toNat / y.toNat := by
  have hlt : x.toNat / y.toNat < 2 ^ 16 := Nat.lt_of_le_of_lt (Nat.div_le_self _ _) x.isLt
  rw [quotient, if_neg hy, BitVec.toNat_ofNat, Nat.mod_eq_of_lt hlt]

/-- The signed quotient by a divisor that is not 0 is the truncated one, wrapped to 16 bits (R120). -/
theorem quotient_signed (x : Word) {y : Word} (hy : y ≠ 0) :
    quotient .signed x y = BitVec.ofInt 16 (x.toInt.tdiv y.toInt) := by
  rw [quotient, if_neg hy]

/-- It wraps for -32768 by -1 alone. -/
theorem toInt_quotient_signed {x y : Word} (hy : y ≠ 0) (hwrap : ¬(x = 0x8000#16 ∧ y = 0xFFFF#16)) :
    (quotient .signed x y).toInt = x.toInt.tdiv y.toInt := by
  rw [quotient_signed x hy, ← BitVec.toInt_sdiv_of_ne_or_ne x y (not_and_or.mp hwrap), BitVec.ofInt_toInt]

/-- Settles O16: the row's output is the quotient and its `ov` is the overflow of the division. -/
theorem quotientAndItsFlags : Obligations.QuotientAndItsFlags := by
  intro cfg x y h
  have out : (alu cfg 0b111101#6 x y).out = quotient cfg.divSignedness x y := alu_out h _ x y
  have cy : (alu cfg 0b111101#6 x y).cy = false := by rw [alu_eq_aluOf h]; rfl
  have ov : (alu cfg 0b111101#6 x y).ov = divOverflow cfg.divSignedness x y := by rw [alu_eq_aluOf h]; rfl
  rw [out, cy, ov]
  refine ⟨rfl, ?zero, ?unsigned, ?wraps, ?truncates⟩
  case zero =>
    rintro rfl
    exact ⟨quotient_zero _ x, (divOverflow_iff _ x 0).mpr (.inl rfl)⟩
  case unsigned =>
    intro hy hsign
    rw [hsign]
    exact ⟨toNat_quotient_unsigned x hy, beq_false_of_ne hy⟩
  case wraps =>
    rintro _ hsign ⟨rfl, rfl⟩
    rw [hsign]
    exact ⟨by decide, by decide⟩
  case truncates =>
    intro hy hsign hwrap
    have fits : ¬ divOverflow cfg.divSignedness x y = true := by
      rw [divOverflow_iff]
      rintro (zero | ⟨_, wraps⟩)
      · exact hy zero
      · exact hwrap wraps
    exact ⟨by rw [hsign, toInt_quotient_signed hy hwrap], Bool.eq_false_of_not_eq_true fits⟩

end Sys2Proof.Machine
end

section
/-! SUPPORT. NOP, MOV and the instructions that take the ALU's answer: each is the frame of one register, or of one
register and the flags, with the ALU's facts about the value. From these O17 to O26. -/

namespace Sys2Proof.Machine

variable (s : State)

/-! ### Operands and frames -/

@[simp] theorem toNat_literal (imm : Imm) : (literal imm).toNat = imm.toNat :=
  BitVec.toNat_setWidth_of_le (by decide)

/-- A literal is non-negative (R77). -/
@[simp] theorem msb_literal (imm : Imm) : (literal imm).msb = false := by
  have small := imm.isLt
  rw [BitVec.msb_eq_false_iff_two_mul_lt, toNat_literal]
  omega

/-- Writing a register changes that register alone. -/
theorem State.onlyRegister_writeReg (rd : RegIdx) (v : Word) : s.OnlyRegister (s.writeReg rd v) rd :=
  ⟨rfl, fun _ hother => s.readReg_writeReg_other v hother⟩

/-- Taking the ALU's answer changes the destination and the flags alone. -/
theorem State.onlyRegisterAndFlags_aluInto (d : AluVector) (rd : RegIdx) (y : Word) :
    s.OnlyRegisterAndFlags (aluInto d rd y s) rd :=
  ⟨aluInto_frame d rd y s, fun _ hother => aluInto_readReg_other d y s hother⟩

/-- Settles O17: NOP answers the state it is given. -/
theorem nopChangesNothing : Obligations.NopChangesNothing :=
  fun _ => rfl

/-- Settles O18: MOV is one register write of a literal. -/
theorem movWritesItsLiteral : Obligations.MovWritesItsLiteral := by
  intro rd imm s
  refine ⟨_, rfl, s.onlyRegister_writeReg rd _, ?_⟩
  rw [State.readReg_writeReg_same, toNat_literal]

/-! ### The ALU instructions -/

/-- The latched `zr` and `ng` speak of the value written, for every vector (R113). -/
theorem aluInto_zr_ng (h : s.cfg.wordBits = 16) (d : AluVector) (rd : RegIdx) (y : Word) :
    ((aluInto d rd y s).flags.zr = true ↔ (aluInto d rd y s).readReg rd = 0) ∧
      ((aluInto d rd y s).flags.ng = true ↔ ((aluInto d rd y s).readReg rd).msb = true) := by
  have follow := zeroAndNegativeFollowOutput s.cfg d (s.readReg rd) y h
  rw [← negativeFlag_eq_getLsbD, negativeFlag_eq] at follow
  simpa using follow

/-- The common effect of the two forms of ADD (R163), for a second operand `y`. -/
theorem aluInto_vectorAdd (h : s.cfg.wordBits = 16) (rd : RegIdx) (y : Word) :
    ((aluInto vectorAdd rd y s).readReg rd).toNat = ((s.readReg rd).toNat + y.toNat) % 65536 ∧
      ((aluInto vectorAdd rd y s).flags.ov = true ↔
        (s.readReg rd).msb = y.msb ∧ ((aluInto vectorAdd rd y s).readReg rd).msb ≠ (s.readReg rd).msb) ∧
      ((aluInto vectorAdd rd y s).flags.cy = true ↔ 65535 < (s.readReg rd).toNat + y.toNat) := by
  obtain ⟨out, cy, ov⟩ := alu_of_kind_add (d := vectorAdd) (x := s.readReg rd) (y := y) h rfl
  rw [aluInto_readReg_same, aluInto_flags, AluResult.flags_ov, AluResult.flags_cy, out, cy, ov]
  exact ⟨BitVec.toNat_add _ _, addOverflow_iff _ _ _, addCarry_iff _ _⟩

/-- The common effect of the two forms of SUB (R164), for a second operand `y`. -/
theorem aluInto_vectorSub (h : s.cfg.wordBits = 16) (rd : RegIdx) (y : Word) :
    (((aluInto vectorSub rd y s).readReg rd).toNat : Int) = ((s.readReg rd).toNat - (y.toNat : Int)) % 65536 ∧
      ((aluInto vectorSub rd y s).flags.ov = true ↔
        (s.readReg rd).msb ≠ y.msb ∧ ((aluInto vectorSub rd y s).readReg rd).msb ≠ (s.readReg rd).msb) ∧
      ((aluInto vectorSub rd y s).flags.cy = true ↔ if s.cfg.subCarryConvention = .borrow
        then (s.readReg rd).toNat < y.toNat else y.toNat ≤ (s.readReg rd).toNat) := by
  obtain ⟨out, cy, ov⟩ := alu_of_kind_sub (d := vectorSub) (x := s.readReg rd) (y := y) h rfl
  rw [aluInto_readReg_same, aluInto_flags, AluResult.flags_ov, AluResult.flags_cy, out, cy, ov]
  exact ⟨toNat_sub_eq_emod _ _, subOverflow_iff _ _ _, subCarry_iff _ _ _⟩

/-- Settles O20: the register form of ADD is the sum with `reg[rs]`. -/
theorem addRegAddsTwoRegisters : Obligations.AddRegAddsTwoRegisters := by
  intro rd rs s h
  obtain ⟨zr, ng⟩ := aluInto_zr_ng s h vectorAdd rd (s.readReg rs)
  obtain ⟨sum, ov, cy⟩ := aluInto_vectorAdd s h rd (s.readReg rs)
  exact ⟨_, rfl, s.onlyRegisterAndFlags_aluInto _ rd _, sum, zr, ng, ov, cy⟩

/-- Settles O19: the literal form of ADD is the sum with a literal, whose sign is known. -/
theorem addImmAddsItsLiteral : Obligations.AddImmAddsItsLiteral := by
  intro rd imm s h
  obtain ⟨zr, ng⟩ := aluInto_zr_ng s h vectorAdd rd (literal imm)
  obtain ⟨sum, ov, cy⟩ := aluInto_vectorAdd s h rd (literal imm)
  rw [toNat_literal] at sum cy
  refine ⟨_, rfl, s.onlyRegisterAndFlags_aluInto _ rd _, sum, zr, ng, ov.trans ?_, cy⟩
  rw [msb_literal]
  exact and_congr_right fun positive => by rw [positive, Bool.ne_false_iff]

/-- Settles O22: the register form of SUB is the difference with `reg[rs]`. -/
theorem subRegSubtractsTwoRegisters : Obligations.SubRegSubtractsTwoRegisters := by
  intro rd rs s h
  obtain ⟨zr, ng⟩ := aluInto_zr_ng s h vectorSub rd (s.readReg rs)
  obtain ⟨difference, ov, cy⟩ := aluInto_vectorSub s h rd (s.readReg rs)
  exact ⟨_, rfl, s.onlyRegisterAndFlags_aluInto _ rd _, difference, zr, ng, ov, cy⟩

/-- Settles O21: the literal form of SUB is the difference with a literal, whose sign is known. -/
theorem subImmSubtractsItsLiteral : Obligations.SubImmSubtractsItsLiteral := by
  intro rd imm s h
  obtain ⟨zr, ng⟩ := aluInto_zr_ng s h vectorSub rd (literal imm)
  obtain ⟨difference, ov, cy⟩ := aluInto_vectorSub s h rd (literal imm)
  rw [toNat_literal] at difference cy
  refine ⟨_, rfl, s.onlyRegisterAndFlags_aluInto _ rd _, difference, zr, ng, ov.trans ?_, cy⟩
  rw [msb_literal, Bool.ne_false_iff]
  exact and_congr_right fun negative => by rw [negative, ne_eq, Bool.not_eq_true]

/-- Settles O23: both are rows of the logic kind, whose overflow and carry are clear. -/
theorem andOrWorkBitwise : Obligations.AndOrWorkBitwise := by
  intro rd rs s h
  refine ⟨⟨_, rfl, s.onlyRegisterAndFlags_aluInto _ rd _, ?and⟩,
    ⟨_, rfl, s.onlyRegisterAndFlags_aluInto _ rd _, ?or⟩⟩
  case and =>
    obtain ⟨zr, ng⟩ := aluInto_zr_ng s h vectorAnd rd (s.readReg rs)
    refine ⟨fun i _ => ?_, zr, ng, ?_⟩
    · rw [aluInto_readReg_same, alu_vectorAnd h]
      exact BitVec.getLsbD_and
    · rw [aluInto_flags, alu_vectorAnd h]
      exact ⟨rfl, rfl⟩
  case or =>
    obtain ⟨zr, ng⟩ := aluInto_zr_ng s h vectorOr rd (s.readReg rs)
    refine ⟨fun i _ => ?_, zr, ng, ?_⟩
    · rw [aluInto_readReg_same, alu_vectorOr h]
      exact BitVec.getLsbD_or
    · rw [aluInto_flags, alu_vectorOr h]
      exact ⟨rfl, rfl⟩

/-- Settles O24: MUL takes the ALU's product and its flags. -/
theorem mulKeepsLowHalf : Obligations.MulKeepsLowHalf := by
  intro rd rs s h
  obtain ⟨zr, ng⟩ := aluInto_zr_ng s h vectorMul rd (s.readReg rs)
  obtain ⟨product, ov, cy⟩ := productAndItsFlags s.cfg (s.readReg rd) (s.readReg rs) h
  refine ⟨_, rfl, s.onlyRegisterAndFlags_aluInto _ rd _, ?_, zr, ng, ov, cy⟩
  rw [← product]
  exact congrArg BitVec.toNat (aluInto_readReg_same vectorMul rd _ s)

/-! ### DIV -/

/-- A DIV by 0 raises under `Fatal` (R168, R215). -/
theorem exec_div_of_fatal (rd : RegIdx) {rs : RegIdx} (hzero : s.readReg rs = 0)
    (hpolicy : s.cfg.divZeroPolicy = .fatal) : exec (.div rd rs) s = raise .divideByZero s :=
  if_pos ⟨hzero, hpolicy⟩

/-- Any other DIV takes the ALU's answer (R168). -/
theorem exec_div_of_not_fatal (rd : RegIdx) {rs : RegIdx}
    (h : ¬(s.readReg rs = 0 ∧ s.cfg.divZeroPolicy = .fatal)) :
    exec (.div rd rs) s = .next (aluInto vectorDiv rd (s.readReg rs) s) :=
  if_neg h

/-- Settles O25: the ALU divides, and its overflow is the signed -32768 by -1 alone. -/
theorem divDividesByNonzero : Obligations.DivDividesByNonzero := by
  intro rd rs s h hne
  obtain ⟨zr, ng⟩ := aluInto_zr_ng s h vectorDiv rd (s.readReg rs)
  have quot : (aluInto vectorDiv rd (s.readReg rs) s).readReg rd =
      quotient s.cfg.divSignedness (s.readReg rd) (s.readReg rs) := by
    rw [aluInto_readReg_same, alu_vectorDiv h]; rfl
  have overflow : (aluInto vectorDiv rd (s.readReg rs) s).flags.ov =
      divOverflow s.cfg.divSignedness (s.readReg rd) (s.readReg rs) := by
    rw [aluInto_flags, alu_vectorDiv h]; rfl
  have carry : (aluInto vectorDiv rd (s.readReg rs) s).flags.cy = false := by
    rw [aluInto_flags, alu_vectorDiv h]; rfl
  refine ⟨_, exec_div_of_not_fatal s rd fun zero => hne zero.1, s.onlyRegisterAndFlags_aluInto _ rd _, ?unsigned,
    ?signed, zr, ng, ?overflow, carry⟩
  case unsigned => intro hsign; rw [quot, hsign, toNat_quotient_unsigned _ hne]
  case signed => intro hsign; rw [quot, hsign, quotient_signed _ hne]
  case overflow => rw [overflow, divOverflow_iff, or_iff_right hne]

/-- The ALU's answer to a division by 0, at every width (R119, R120). -/
theorem alu_vectorDiv_zero (cfg : Config) (x : Word) : alu cfg vectorDiv x 0 =
    { out := 0, zr := true, ng := false, ov := true, cy := false, undef := false } := by
  have division : AluOp.ofVector vectorDiv = .div := by decide
  cases hsign : cfg.divSignedness <;>
    simp [alu, division, aluOf, AluResult.toWord, AluOp.out, AluOp.kind, quotient, zeroFlag, negativeFlag,
      overflowFlag, carryFlag, divOverflow, hsign]

/-- Settles O26: the policy decides between raising and the ALU's answer to a division by 0. -/
theorem divByZeroFollowsPolicy : Obligations.DivByZeroFollowsPolicy := by
  intro rd rs s hzero
  refine ⟨fun hfatal => ?fatal, fun hcontinue => ?goesOn⟩
  case fatal => rw [exec_div_of_fatal s rd hzero hfatal, raise_eq_next_halted]
  case goesOn =>
    have notFatal : ¬(s.readReg rs = 0 ∧ s.cfg.divZeroPolicy = .fatal) := by simp [hcontinue]
    refine ⟨_, exec_div_of_not_fatal s rd notFatal, s.onlyRegisterAndFlags_aluInto _ rd _, ?_⟩
    rw [hzero, aluInto_readReg_same, aluInto_flags, alu_vectorDiv_zero]
    exact ⟨rfl, rfl⟩

end Sys2Proof.Machine
end

section
/-! SUPPORT. Control transfer and memory access: one equation for each branch of an instruction, and from these O27
to O29, O31, O33 to O36, O38 and O57. -/

namespace Sys2Proof.Machine

variable {s : State}

/-! ### Control transfer -/

/-- Settles O27: JMP is one jump to a literal. -/
theorem jmpGoesToItsTarget : Obligations.JmpGoesToItsTarget :=
  fun target _ => ⟨_, rfl, rfl, toNat_literal target⟩

/-- Settles O28: JZ jumps in one branch and answers the state it is given in the other. -/
theorem jzFollowsLatchedZero : Obligations.JzFollowsLatchedZero := by
  intro target s
  rcases execJz_cases target s with ⟨zero, jumps⟩ | ⟨nonzero, stays⟩
  · exact ⟨_, jumps, rfl, by rw [if_pos zero, State.jump_ip, toNat_literal]⟩
  · exact ⟨_, stays, rfl, by rw [nonzero]; rfl⟩

/-- Settles O33: HALT is one write of the status. -/
theorem haltEndsTheRun : Obligations.HaltEndsTheRun :=
  fun _ => rfl

/-- Settles O34: its meaning is to raise `IllegalOpcode`. -/
theorem illegalOpcodeEndsTheRun : Obligations.IllegalOpcodeEndsTheRun :=
  raise_eq_next_halted .illegalOpcode

/-- A CALL with a free slot inside memory pushes and jumps (R182). -/
theorem exec_call_of_inRange (target : Imm) (hsp : s.sp ≠ 0) (hslot : s.sp.toNat < s.cfg.memWords) :
    exec (.call target) s = .next ((s.storeWord s.sp s.ip).pushed.jump (literal target)) := by
  rw [exec, execCall, if_neg hsp, if_pos ((s.inRange_iff _).mpr hslot)]

/-- A RET with a filled slot inside memory pops and jumps (R183). -/
theorem exec_ret_of_inRange (hsp : s.sp.toNat < s.cfg.stackTop.toNat)
    (hslot : (s.sp + 1).toNat < s.cfg.memWords) :
    exec .ret s = .next (s.popped.jump (s.loadWord (s.sp + 1))) := by
  rw [exec, execRet, if_neg (Nat.not_le.mpr hsp), if_pos ((s.inRange_iff _).mpr hslot)]

/-- Below the top of the stack, SP + 1 does not wrap. -/
theorem toNat_sp_add_one (hsp : s.sp.toNat < s.cfg.stackTop.toNat) : (s.sp + 1).toNat = s.sp.toNat + 1 := by
  have htop := s.cfg.stackTop.isLt
  bv_omega

/-- Settles O29: CALL is one word write, the stack's bookkeeping and a jump. -/
theorem callPushesAndJumps : Obligations.CallPushesAndJumps := by
  intro target s hsp hslot
  have down : (s.sp - 1).toNat + 1 = s.sp.toNat := by bv_omega
  exact ⟨_, exec_call_of_inRange target hsp hslot, rfl, State.onlyWord_of_mem_eq_write rfl, down,
    toNat_literal target⟩

/-- Settles O31: RET is the stack's bookkeeping and a jump to the word in the slot. -/
theorem retPopsReturnAddress : Obligations.RetPopsReturnAddress := by
  intro s hsp hslot
  have up := toNat_sp_add_one hsp
  refine ⟨_, exec_ret_of_inRange hsp (by omega), rfl, up, ?_⟩
  rw [State.jump_ip, State.loadWord, up]

/-- Settles O57: after the CALL, SP is one below the slot that holds its return address, and the RET in `u` pops
that slot. -/
theorem retReturnsPastTheCall : Obligations.RetReturnsPastTheCall := by
  intro target s t u hinv hsp hcall hcfg husp hslotKept
  have hrange := hinv.stackRange
  obtain ⟨htop, _⟩ := hinv.sizes
  have hslot : s.sp.toNat < s.cfg.memWords := by omega
  rw [exec_call_of_inRange target hsp hslot] at hcall
  cases hcall
  have back : u.sp + 1 = s.sp := by
    rw [husp]
    exact BitVec.sub_add_cancel _ _
  have below : u.sp.toNat < u.cfg.stackTop.toNat := by
    rw [husp, hcfg, State.jump_sp, State.pushed_sp, State.storeWord_sp]
    show _ < s.cfg.stackTop.toNat
    bv_omega
  refine ⟨_, exec_ret_of_inRange below ?inside, ?ip, back⟩
  case inside => rw [back, hcfg]; exact hslot
  case ip =>
    rw [State.jump_ip, State.loadWord, back, hslotKept]
    exact s.mem.read_write_same s.sp.toNat s.ip

/-! ### Memory access -/

/-- Settles O35: a LOAD in range is one register write of the addressed word. -/
theorem loadReadsAddressedWord : Obligations.LoadReadsAddressedWord := by
  intro rd ra s hrange
  have loads : exec (.load rd ra) s = .next (s.writeReg rd (s.loadWord (s.readReg ra))) :=
    if_pos ((s.inRange_iff _).mpr hrange)
  exact ⟨_, loads, s.onlyRegister_writeReg rd _, s.readReg_writeReg_same rd _⟩

/-- Settles O36: away from the output address the port does nothing, and the STORE is one word write. -/
theorem storeWritesAddressedWord : Obligations.StoreWritesAddressedWord := by
  intro rs ra s hrange hport
  have silent : (s.storeWord (s.readReg ra) (s.readReg rs)).port (s.readReg ra) (s.readReg rs) =
      s.storeWord (s.readReg ra) (s.readReg rs) := if_neg hport
  have stores := exec_store_of_inRange rs hrange
  rw [silent] at stores
  exact ⟨_, stores, rfl, State.onlyWord_of_mem_eq_write rfl⟩

/-- Settles O38: both accesses check their address first, and raising writes the status alone. -/
theorem outOfRangeAccessesEndTheRun : Obligations.OutOfRangeAccessesEndTheRun := by
  intro r ra s houtside
  have outside : ¬ s.inRange (s.address ra) = true := by
    rw [s.inRange_iff]
    exact Nat.not_lt.mpr houtside
  exact ⟨if_neg outside, if_neg outside⟩

end Sys2Proof.Machine
end

section
/-! SUPPORT. Which fields an execution can change: each statement reads one field off the list of everything that
the execute phase can do, update by update. From these O50 to O54. -/

namespace Sys2Proof.Machine

/-- Settles O50: the updates that write a register write the instruction's destination. -/
theorem onlyDestinationRegisterChanges : Obligations.OnlyDestinationRegisterChanges := by
  intro i s t r hexec hchanged
  rcases exec_cases hexec with rfl | ⟨rd, v, hdest, _, _, rfl⟩ | ⟨rd, d, y, hdest, _, rfl⟩ | ⟨target, _, rfl⟩ |
    ⟨target, _, _, _, rfl⟩ | ⟨_, _, rfl⟩ | ⟨rs, ra, _, _, rfl⟩ | ⟨c, rfl⟩
  · exact absurd rfl hchanged
  · have isDest : r = rd := by
      by_contra other
      exact hchanged (s.readReg_writeReg_other v other)
    rw [isDest, hdest]
  · have isDest : r = rd := by
      by_contra other
      exact hchanged (aluInto_readReg_other d y s other)
    rw [isDest, hdest]
  · exact absurd rfl hchanged
  · exact absurd rfl hchanged
  · exact absurd rfl hchanged
  · exact absurd (by simp) hchanged
  · exact absurd rfl hchanged

/-- Settles O51: the ALU's answer is the one update that latches flags. -/
theorem onlyAluInstructionsWriteFlags : Obligations.OnlyAluInstructionsWriteFlags := by
  intro i s t hexec hchanged
  rcases exec_cases hexec with rfl | ⟨rd, v, _, _, _, rfl⟩ | ⟨rd, d, y, _, hflags, rfl⟩ | ⟨target, _, rfl⟩ |
    ⟨target, _, _, _, rfl⟩ | ⟨_, _, rfl⟩ | ⟨rs, ra, _, _, rfl⟩ | ⟨c, rfl⟩
  · exact absurd rfl hchanged
  · exact absurd rfl hchanged
  · exact hflags
  · exact absurd rfl hchanged
  · exact absurd rfl hchanged
  · exact absurd rfl hchanged
  · exact absurd (by simp) hchanged
  · exact absurd rfl hchanged

/-- Settles O52: the two updates that write memory write one word. -/
theorem onlyStoreAndCallWriteMemory : Obligations.OnlyStoreAndCallWriteMemory := by
  intro i s t hexec
  rcases exec_cases hexec with rfl | ⟨rd, v, _, _, _, rfl⟩ | ⟨rd, d, y, _, _, rfl⟩ | ⟨target, _, rfl⟩ |
    ⟨target, hi, _, _, rfl⟩ | ⟨_, _, rfl⟩ | ⟨rs, ra, hi, _, rfl⟩ | ⟨c, rfl⟩
  · exact .inl rfl
  · exact .inl rfl
  · exact .inl rfl
  · exact .inl rfl
  · exact .inr (.inr ⟨target, hi, State.onlyWord_of_mem_eq_write rfl⟩)
  · exact .inl rfl
  · exact .inr (.inl ⟨rs, ra, hi, State.onlyWord_of_mem_eq_write (by simp)⟩)
  · exact .inl rfl

/-- Settles O53: no update of an execution reaches IR, the count or the parameters, and only the push and the pop
move SP and the depth. -/
theorem onlyCallAndRetMoveTheStack : Obligations.OnlyCallAndRetMoveTheStack := by
  intro i s t hexec
  rcases exec_cases hexec with rfl | ⟨rd, v, _, _, _, rfl⟩ | ⟨rd, d, y, _, _, rfl⟩ | ⟨target, _, rfl⟩ |
    ⟨target, hi, _, _, rfl⟩ | ⟨hi, _, rfl⟩ | ⟨rs, ra, _, _, rfl⟩ | ⟨c, rfl⟩
  · exact ⟨rfl, rfl, rfl, rfl, .inl ⟨rfl, rfl⟩⟩
  · exact ⟨rfl, rfl, rfl, rfl, .inl ⟨rfl, rfl⟩⟩
  · exact ⟨rfl, rfl, rfl, rfl, .inl ⟨rfl, rfl⟩⟩
  · exact ⟨rfl, rfl, rfl, rfl, .inl ⟨rfl, rfl⟩⟩
  · exact ⟨rfl, rfl, rfl, rfl, .inr (.inr ⟨target, hi⟩)⟩
  · exact ⟨rfl, rfl, rfl, rfl, .inr (.inl hi)⟩
  · simp
  · exact ⟨rfl, rfl, rfl, rfl, .inl ⟨rfl, rfl⟩⟩

/-- Settles O54: the updates that jump are those of the four control transfers. -/
theorem onlyControlTransfersMoveIp : Obligations.OnlyControlTransfersMoveIp := by
  intro i s t hexec hmoved
  rcases exec_cases hexec with rfl | ⟨rd, v, _, _, _, rfl⟩ | ⟨rd, d, y, _, _, rfl⟩ | ⟨target, hi, rfl⟩ |
    ⟨target, hi, _, _, rfl⟩ | ⟨hi, _, rfl⟩ | ⟨rs, ra, _, _, rfl⟩ | ⟨c, rfl⟩
  · exact absurd rfl hmoved
  · exact absurd rfl hmoved
  · exact absurd rfl hmoved
  · exact .inr ⟨target, hi.imp_right .inl⟩
  · exact .inr ⟨target, .inr (.inr hi)⟩
  · exact .inl hi
  · exact absurd (by simp) hmoved
  · exact absurd rfl hmoved

end Sys2Proof.Machine
end

section
/-! SUPPORT. The cycle and the run: which way each cycle goes, what it counts, that it always ends in a next state
under the invariant, and that a budget bounds the run. From these O39 to O43, O46, O47, O55, O56 and O58. -/

namespace Sys2Proof.Machine

variable {s t : State}

/-! ### The ways of a cycle -/

/-- A cycle that fetches executes the word at IP, in the state after its fetch (R142 to R144). -/
theorem step_of_canFetch (h : s.canFetch) :
    step s = exec (decode s.cfg (s.mem.read s.ip.toNat)) s.afterFetch := by
  obtain ⟨hrun, hbudget, hip⟩ := h
  have starts : startCycle s = .execute (decode s.cfg (s.mem.read s.ip.toNat)) s.afterFetch := by
    rw [startCycle, hrun]
    exact (if_neg (s.budgetSpent_iff.not.mpr hbudget)).trans (if_pos ((s.inRange_iff _).mpr hip))
  rw [step, starts]

/-- Settles O39: a cycle that fetches executes whatever the word at IP decodes to. -/
theorem stepRunsDecodedInstruction : Obligations.StepRunsDecodedInstruction := by
  intro s i hfetch hdecode _
  rw [step_of_canFetch hfetch, hdecode]

theorem runFor_of_halted {c : HaltReason} (h : s.status = .halted c) (n : Nat) : runFor n s = s := by
  cases n with
  | zero => rfl
  | succ n => rw [runFor, h]

/-- Settles O40: the step and both loops look at the status first. -/
theorem haltedIsTerminal : Obligations.HaltedIsTerminal := by
  intro s c h
  refine ⟨?_, runFor_of_halted h, fun b => ?_⟩
  · rw [step, startCycle, h]
  · rw [run, h]

/-- Settles O41: the budget check comes before the fetch. -/
theorem spentBudgetEndsTheRun : Obligations.SpentBudgetEndsTheRun := by
  intro s hrun hspent
  have ends : startCycle s = .ended (s.stopped .incomplete) := by
    rw [startCycle, hrun]
    exact if_pos (s.budgetSpent_iff.mpr hspent)
  rw [step, ends]
  rfl

/-- Settles O42: the cycle is counted before the fetch address is checked. -/
theorem fetchOutsideMemoryEndsTheRun : Obligations.FetchOutsideMemoryEndsTheRun := by
  intro s hrun hbudget hip
  have outside : ¬ s.inRange s.ip = true := by
    rw [s.inRange_iff]
    exact Nat.not_lt.mpr hip
  have ends : startCycle s = .ended (s.counted.stopped .fetchOutOfRange) := by
    rw [startCycle, hrun]
    exact (if_neg (s.budgetSpent_iff.not.mpr hbudget)).trans (if_neg outside)
  rw [step, ends]
  rfl

/-- Settles O55: the count comes after the budget check, and no execution changes it (O53). -/
theorem everyCycleIsCounted : Obligations.EveryCycleIsCounted := by
  intro s t hstep
  rcases step_cases hstep with ⟨_, hspent, rfl⟩ | ⟨_, hbudget, _, hexec⟩ | ⟨_, hbudget, _, rfl⟩
  · exact .inr ⟨hspent, rfl, rfl⟩
  · obtain ⟨_, cycles, _⟩ := onlyCallAndRetMoveTheStack _ _ _ hexec
    exact .inl ⟨hbudget, cycles⟩
  · exact .inl ⟨hbudget, rfl⟩

/-! ### Ends and stores -/

/-- An execution that ends a run changes the status alone: of all updates only `stopped` reaches it. -/
theorem exec_halts {i : Instr} {c : HaltReason} (hrun : s.status = .running) (hexec : exec i s = .next t)
    (hend : t.status = .halted c) : t = s.stopped c := by
  have keeps : t.status ≠ s.status := by
    rw [hrun, hend]
    exact nofun
  rcases exec_cases hexec with rfl | ⟨rd, v, _, _, _, rfl⟩ | ⟨rd, d, y, _, _, rfl⟩ | ⟨target, _, rfl⟩ |
    ⟨target, _, _, _, rfl⟩ | ⟨_, _, rfl⟩ | ⟨rs, ra, _, _, rfl⟩ | ⟨c', rfl⟩
  · exact absurd rfl keeps
  · exact absurd rfl keeps
  · exact absurd rfl keeps
  · exact absurd rfl keeps
  · exact absurd rfl keeps
  · exact absurd rfl keeps
  · exact absurd (by simp) keeps
  · cases hend
    rfl

/-- Settles O43: the fetch leaves the core running, so the end is the instruction's. -/
theorem fatalConditionsArePrecise : Obligations.FatalConditionsArePrecise := by
  intro s t c hfetch hstep hend _
  rw [step_of_canFetch hfetch] at hstep
  exact exec_halts (s := s.afterFetch) hfetch.1 hstep hend

/-- Settles O56: the STORE leaves a state that can fetch, and reads back its own word at IP. -/
theorem storedWordIsExecutedNext : Obligations.StoredWordIsExecutedNext := by
  intro rs ra s t hrun hbudget haddr hip hexec
  rw [exec_store_of_inRange rs (by rw [haddr]; exact hip)] at hexec
  cases hexec
  rw [step_of_canFetch (by simp [State.canFetch, hrun, hbudget, hip])]
  simp [haddr]

/-! ### The run -/

/-- Under the invariant the stack's slots are inside memory, so no instruction faults (R27, R56). -/
theorem exec_answers_next (i : Instr) (hinv : s.Inv) : ∃ t, exec i s = .next t := by
  have hrange := hinv.stackRange
  obtain ⟨htop, _⟩ := hinv.sizes
  cases i with
  | div rd rs => rcases execDiv_cases rd rs s with ⟨_, _, e⟩ | ⟨_, e⟩ <;> exact ⟨_, e⟩
  | jz target => rcases execJz_cases target s with ⟨_, e⟩ | ⟨_, e⟩ <;> exact ⟨_, e⟩
  | load rd ra => rcases execLoad_cases rd ra s with ⟨_, e⟩ | ⟨_, e⟩ <;> exact ⟨_, e⟩
  | store rs ra => rcases execStore_cases rs ra s with ⟨_, e⟩ | ⟨_, e⟩ <;> exact ⟨_, e⟩
  | call target =>
    by_cases hsp : s.sp = 0
    · exact ⟨_, exec_call_of_sp_eq_zero target hsp⟩
    · exact ⟨_, exec_call_of_inRange target hsp (by omega)⟩
  | ret =>
    by_cases hsp : s.cfg.stackTop.toNat ≤ s.sp.toNat
    · exact ⟨_, exec_ret_of_stackTop_le_sp hsp⟩
    · have up := toNat_sp_add_one (Nat.not_le.mp hsp)
      exact ⟨_, exec_ret_of_inRange (Nat.not_le.mp hsp) (by omega)⟩
  | _ => exact ⟨_, rfl⟩

/-- Settles O46: the budget check and the fetch always answer a next state, and so does the instruction. -/
theorem runningCoreAlwaysSteps : Obligations.RunningCoreAlwaysSteps := by
  intro s hinv hrun
  by_cases hspent : s.budget = some s.cycles
  · exact ⟨_, spentBudgetEndsTheRun s hrun hspent⟩
  · by_cases hip : s.ip.toNat < s.cfg.memWords
    · rw [step_of_canFetch ⟨hrun, hspent, hip⟩]
      exact exec_answers_next _ (hinv.counted hspent).fetched
    · exact ⟨_, fetchOutsideMemoryEndsTheRun s hrun hspent (Nat.not_lt.mp hip)⟩

/-- No step changes the budget. -/
theorem step_budget (hstep : step s = .next t) : t.budget = s.budget := by
  rcases step_cases hstep with ⟨_, _, rfl⟩ | ⟨_, _, _, hexec⟩ | ⟨_, _, _, rfl⟩
  · rfl
  · obtain ⟨_, _, _, budget, _⟩ := onlyCallAndRetMoveTheStack _ _ _ hexec
    exact budget
  · rfl

theorem runFor_succ_of_step (hrun : s.status = .running) (hstep : step s = .next t) (n : Nat) :
    runFor (n + 1) s = runFor n t := by
  rw [runFor, hrun, hstep]

/-- The loop ends within the cycles left and one budget check: each step spends a cycle or ends the run. -/
theorem runFor_ends {b : Nat} (n : Nat) (s : State) (hinv : s.Inv) (hbudget : s.budget = some b)
    (hleft : b - s.cycles ≤ n) : (runFor (n + 1) s).hasHalted ∧ (runFor (n + 1) s).cycles ≤ b := by
  have hkept := hinv.budgetKept b hbudget
  cases hstatus : s.status with
  | halted c =>
    rw [runFor_of_halted hstatus, State.hasHalted, hstatus]
    exact ⟨nofun, hkept⟩
  | running =>
    obtain ⟨t, hstep⟩ := runningCoreAlwaysSteps s hinv hstatus
    have hbudget' : t.budget = some b := (step_budget hstep).trans hbudget
    rw [runFor_succ_of_step hstatus hstep]
    rcases everyCycleIsCounted s t hstep with ⟨hunspent, hcount⟩ | ⟨_, hcount, hend⟩
    · have hne : s.cycles ≠ b := fun e => hunspent (e ▸ hbudget)
      obtain ⟨m, rfl⟩ : ∃ m, n = m + 1 := ⟨n - 1, by omega⟩
      exact runFor_ends m t (stepKeepsInvariant s t hinv hstep) hbudget' (by omega)
    · rw [runFor_of_halted hend, State.hasHalted, hend, hcount]
      exact ⟨nofun, hkept⟩
termination_by n

/-- `run(b)` on a running core is the loop with the budget set (R147). -/
theorem run_of_running (hrun : s.status = .running) (b : Nat) :
    run b s = runFor (b + 1) { s with budget := some b } := by
  unfold run
  split
  · next c halted => rw [hrun] at halted; cases halted
  · rfl

/-- Settles O47: the bound on the loop, and `run(b)` is the loop with the budget set. -/
theorem everyRunEnds : Obligations.EveryRunEnds := by
  refine ⟨fun s b hinv hbudget => runFor_ends _ s hinv hbudget le_rfl, fun s b hinv hcycles => ?run⟩
  cases hstatus : s.status with
  | halted c =>
    rw [run, hstatus, State.hasHalted, hstatus]
    exact ⟨nofun, hcycles⟩
  | running =>
    have hinv' : { s with budget := some b }.Inv :=
      { hinv with
        budgetKept := by
          rintro _ ⟨⟩
          exact hcycles }
    rw [run_of_running hstatus]
    exact runFor_ends b _ hinv' rfl (Nat.sub_le _ _)

/-! ### The budget -/

theorem port_with_budget (a v : Word) (o : Option Nat) :
    { s with budget := o }.port a v = { s.port a v with budget := o } := by
  unfold State.port
  split <;> rfl

/-- No execution looks at the budget or changes it. -/
theorem exec_with_budget {i : Instr} (hexec : exec i s = .next t) (o : Option Nat) :
    exec i { s with budget := o } = .next { t with budget := o } := by
  cases i with
  | div rd rs =>
    rcases execDiv_cases rd rs s with ⟨hzero, hpolicy, e⟩ | ⟨hother, e⟩ <;> (rw [exec, e] at hexec; cases hexec)
    · exact exec_div_of_fatal { s with budget := o } rd hzero hpolicy
    · exact exec_div_of_not_fatal { s with budget := o } rd hother
  | jz target =>
    rcases execJz_cases target s with ⟨hzr, e⟩ | ⟨hzr, e⟩ <;> (rw [exec, e] at hexec; cases hexec)
    · exact if_pos hzr
    · exact if_neg (Bool.eq_false_iff.mp hzr)
  | call target =>
    rcases execCall_cases target s with ⟨hsp, e⟩ | ⟨hsp, hslot, e⟩ | ⟨_, _, e⟩ <;>
      (rw [exec, e] at hexec; cases hexec)
    · exact exec_call_of_sp_eq_zero (s := { s with budget := o }) target hsp
    · exact exec_call_of_inRange (s := { s with budget := o }) target hsp ((s.inRange_iff _).mp hslot)
  | ret =>
    rcases execRet_cases s with ⟨hsp, e⟩ | ⟨hsp, hslot, e⟩ | ⟨_, _, e⟩ <;> (rw [exec, e] at hexec; cases hexec)
    · exact exec_ret_of_stackTop_le_sp (s := { s with budget := o }) hsp
    · exact exec_ret_of_inRange (s := { s with budget := o }) hsp ((s.inRange_iff _).mp hslot)
  | load rd ra =>
    rcases execLoad_cases rd ra s with ⟨hin, e⟩ | ⟨hout, e⟩ <;> (rw [exec, e] at hexec; cases hexec)
    · exact if_pos hin
    · exact if_neg (Bool.eq_false_iff.mp hout)
  | store rs ra =>
    rcases execStore_cases rs ra s with ⟨hin, e⟩ | ⟨hout, e⟩ <;> (rw [exec, e] at hexec; cases hexec)
    · rw [← port_with_budget]
      exact if_pos hin
    · exact if_neg (Bool.eq_false_iff.mp hout)
  | _ =>
    cases hexec
    rfl

/-- Settles O58: with neither budget spent the two steps take the same way. -/
theorem unreachedBudgetChangesNothing : Obligations.UnreachedBudgetChangesNothing := by
  intro s t b hnone hb hstep
  have unspent : { s with budget := some b }.budget ≠ some s.cycles := fun e => hb (Option.some.inj e).symm
  rcases step_cases hstep with ⟨_, hspent, _⟩ | ⟨hrun, hbudget, hip, hexec⟩ | ⟨hrun, hbudget, hip, rfl⟩
  · rw [hnone] at hspent
    cases hspent
  · rw [step_of_canFetch (s := { s with budget := some b }) ⟨hrun, unspent, hip⟩]
    exact exec_with_budget hexec (some b)
  · exact fetchOutsideMemoryEndsTheRun { s with budget := some b } hrun unspent hip

end Sys2Proof.Machine
end

section
/-! SUPPORT. Reset and `load_program`: from these O45, O48 and O49. -/

namespace Sys2Proof.Machine

/-- After reset every register is 0 (R241). -/
@[simp] theorem readReg_initial (cfg : Config) (mem : Memory) (r : RegIdx) :
    (State.initial cfg mem).readReg r = 0 := by
  simp [State.initial, State.readReg]

/-- Settles O45: the canonical profile is valid, and the zeros of reset fit in its Words. -/
theorem resetMeetsInvariant : Obligations.ResetMeetsInvariant where
  sizes := by decide
  memoryForm := by decide
  memoryRange := by decide
  registersFit := fun _ => BitVec.isLt _
  cellsFit := fun _ => BitVec.isLt _
  ipFits := by decide
  irFits := by decide
  stackRange := by decide
  depthCounts := by decide
  budgetKept := nofun

/-- Settles O48: the reset values, with SP at the canonical STACK_TOP. -/
theorem resetLeavesListedValues : Obligations.ResetLeavesListedValues :=
  ⟨rfl, rfl, rfl, readReg_initial _ _, rfl, rfl, Memory.read_nil, rfl, rfl, rfl⟩

/-- A placed word is read at its own address. -/
theorem Memory.read_place (ws : List Word) (m : Memory) (a i : Nat) (h : i < ws.length) :
    (m.place a ws).read (a + i) = ws[i] := by
  induction ws generalizing m a i with
  | nil => exact absurd h (Nat.not_lt_zero i)
  | cons w ws ih =>
    cases i with
    | zero =>
      exact (Memory.read_place_below ws (m.write a w) (Nat.lt_add_one a)).trans (m.read_write_same a w)
    | succ i =>
      have next := ih (m.write a w) (a + 1) i (Nat.lt_of_succ_lt_succ h)
      rw [Memory.place, ← Nat.add_assoc, Nat.add_right_comm, next]
      rfl

/-- Placing words leaves the words beyond them alone. -/
theorem Memory.read_place_beyond (ws : List Word) (m : Memory) {a b : Nat} (h : a + ws.length ≤ b) :
    (m.place a ws).read b = m.read b := by
  induction ws generalizing m a with
  | nil => rfl
  | cons w ws ih =>
    rw [List.length_cons] at h
    rw [Memory.place, ih (m.write a w) (by omega), m.read_write_other w (by omega)]

/-- Settles O49: the words are placed from address 0 in memory that reads as zero. -/
theorem loadProgramPlacesItsWords : Obligations.LoadProgramPlacesItsWords := by
  intro cfg ws
  refine ⟨fun hfits => ⟨_, if_pos hfits, rfl, fun i h => ?placed, fun a ha => ?beyond⟩,
    fun hlong => if_neg (Nat.not_le.mpr hlong)⟩
  case placed =>
    have placed := Memory.read_place ws [] 0 i h
    rwa [Nat.zero_add] at placed
  case beyond =>
    have beyond := Memory.read_place_beyond ws [] (a := 0) (b := a) (by omega)
    rwa [Memory.read_nil] at beyond

end Sys2Proof.Machine
end

section
/-! SUPPORT. The assembler's words: whatever it encodes is a well-formed instruction of the profile, so that each
word is canonical, and the rows are numbered as they are appended. From these O59. -/

namespace Sys2Proof.Machine

theorem bind_eq_ok {ε α β : Type} {x : Except ε α} {f : α → Except ε β} {b : β} :
    (x >>= f) = .ok b ↔ ∃ a, x = .ok a ∧ f a = .ok b := by
  cases x <;> simp [bind, Except.bind]

/-! ### Operand tokens -/

/-- A register token names a register of the profile; the other tokens are free (R92). -/
def Token.Names (cfg : Config) : Token → Prop
  | .register r => r.toNat < cfg.nregs
  | .literal _ => True
  | .label _ => True

theorem literalOf_names {cfg : Config} {cs : List Char} {x : Token} (h : literalOf cs = .ok x) : x.Names cfg := by
  unfold literalOf at h
  split at h <;> split at h <;> cases h <;> trivial

/-- A token is classified as a register only below `NREGS` (R92). -/
theorem tokenOf_names {cfg : Config} {cs : List Char} {x : Token}
    (h : tokenOf cfg cs = .ok x) : x.Names cfg := by
  unfold tokenOf at h
  split at h
  · cases h; trivial
  · split at h
    · split at h
      · next below =>
        cases h
        rw [Token.Names, BitVec.toNat_ofNat]
        exact Nat.lt_of_le_of_lt (Nat.mod_le _ _) below
      · cases h
    · split at h
      · exact literalOf_names h
      · cases h; trivial

theorem tokensOf_names {cfg : Config} {texts : List (List Char)} {ts : List Token}
    (h : tokensOf cfg texts = .ok ts) : ∀ x ∈ ts, x.Names cfg := by
  induction texts generalizing ts with
  | nil => cases h; exact nofun
  | cons t texts ih =>
    obtain ⟨x, hx, h⟩ := bind_eq_ok.mp h
    obtain ⟨xs, hxs, h⟩ := bind_eq_ok.mp h
    cases h
    exact List.forall_mem_cons.mpr ⟨tokenOf_names hx, ih hxs⟩

theorem registerOf_lt {cfg : Config} {x : Token} {r : RegIdx} (hx : x.Names cfg) (h : registerOf x = .ok r) :
    r.toNat < cfg.nregs := by
  cases x <;> cases h
  exact hx

/-- An encoded immediate is masked to `IMM_BITS` (R96, R97). -/
theorem immediateOf_fits {cfg : Config} (himm : cfg.immBits ≤ 6) {policy : UnresolvedLabelPolicy}
    {table : List (List Char × Nat)} {x : Token} {v : Imm} {p : Option AsmProblem}
    (h : immediateOf cfg policy table x = .ok (v, p)) : v.toNat < 2 ^ cfg.immBits := by
  unfold immediateOf at h
  split at h
  · cases h
  · cases h; exact toNat_maskImm_lt himm _
  · split at h
    · cases h; exact toNat_maskImm_lt himm _
    · split at h <;> cases h
      exact toNat_maskImm_lt himm _

/-! ### The shapes of R93 -/

section Shapes

variable {cfg : Config} {policy : UnresolvedLabelPolicy} {table : List (List Char × Nat)} {ts : List Token}
  {c : Encoded}

theorem noOperands_eq_ok {i : Instr} (h : noOperands i ts = .ok c) : c.instr = i := by
  unfold noOperands at h
  split at h <;> cases h
  rfl

theorem twoRegisters_eq_ok {form : RegIdx → RegIdx → Instr} (hnames : ∀ x ∈ ts, x.Names cfg)
    (h : twoRegisters form ts = .ok c) :
    ∃ ra rb, ra.toNat < cfg.nregs ∧ rb.toNat < cfg.nregs ∧ c.instr = form ra rb := by
  unfold twoRegisters at h
  split at h
  · obtain ⟨ra, ha, h⟩ := bind_eq_ok.mp h
    obtain ⟨rb, hb, h⟩ := bind_eq_ok.mp h
    cases h
    exact ⟨ra, rb, registerOf_lt (hnames _ (by simp)) ha, registerOf_lt (hnames _ (by simp)) hb, rfl⟩
  · cases h

theorem registerAndValue_eq_ok (himm : cfg.immBits ≤ 6) {form : RegIdx → Imm → Instr}
    (hnames : ∀ x ∈ ts, x.Names cfg) (h : registerAndValue cfg policy table form ts = .ok c) :
    ∃ ra v, ra.toNat < cfg.nregs ∧ v.toNat < 2 ^ cfg.immBits ∧ c.instr = form ra v := by
  unfold registerAndValue at h
  split at h
  · obtain ⟨ra, ha, h⟩ := bind_eq_ok.mp h
    obtain ⟨⟨v, p⟩, hv, h⟩ := bind_eq_ok.mp h
    cases h
    exact ⟨ra, v, registerOf_lt (hnames _ (by simp)) ha, immediateOf_fits himm hv, rfl⟩
  · cases h

theorem oneValue_eq_ok (himm : cfg.immBits ≤ 6) {form : Imm → Instr}
    (h : oneValue cfg policy table form ts = .ok c) : ∃ v, v.toNat < 2 ^ cfg.immBits ∧ c.instr = form v := by
  unfold oneValue at h
  split at h
  · obtain ⟨⟨v, p⟩, hv, h⟩ := bind_eq_ok.mp h
    cases h
    exact ⟨v, immediateOf_fits himm hv, rfl⟩
  · cases h

/-- The register form is taken only where a word can hold it (R94, R95). -/
theorem registerOrValue_eq_ok (himm : cfg.immBits ≤ 6) {regForm : RegIdx → RegIdx → Instr}
    {immForm : RegIdx → Imm → Instr} (hnames : ∀ x ∈ ts, x.Names cfg)
    (h : registerOrValue cfg policy table regForm immForm ts = .ok c) :
    (∃ ra rb, ra.toNat < cfg.nregs ∧ rb.toNat < cfg.nregs ∧ registerFormOk cfg rb = true ∧
      c.instr = regForm ra rb) ∨
    ∃ ra v, ra.toNat < cfg.nregs ∧ v.toNat < 2 ^ cfg.immBits ∧ c.instr = immForm ra v := by
  unfold registerOrValue at h
  split at h
  · obtain ⟨ra, ha, h⟩ := bind_eq_ok.mp h
    split at h
    · next encodable =>
      cases h
      exact .inl ⟨ra, _, registerOf_lt (hnames _ (by simp)) ha,
        registerOf_lt (x := .register _) (hnames _ (by simp)) rfl, encodable, rfl⟩
    · cases h
  · exact .inr (registerAndValue_eq_ok himm hnames h)

/-! ### Encoded instructions -/

theorem wellFormed_of {i : Instr} (hform : i.formOk cfg = true) (hregs : ∀ r ∈ i.registers, r.toNat < cfg.nregs)
    (hlits : ∀ v ∈ i.literals, v.toNat < 2 ^ cfg.immBits) : i.wellFormed cfg = true :=
  Instr.wellFormed_iff.mpr ⟨hform, by simpa [Instr.registersExist] using hregs, Instr.literalsFit_iff.mpr hlits⟩

/-- Every instruction that is encoded from tokens that name registers of the profile is well-formed (R93, R94). -/
theorem instrOfTokens_wellFormed (himm : cfg.immBits ≤ 6) {m : Mnemonic} (haccepted : m.accepted cfg = true)
    (hnames : ∀ x ∈ ts, x.Names cfg) (h : instrOfTokens cfg policy table m ts = .ok c) :
    c.instr.wellFormed cfg = true := by
  cases m with
  | nop | ret | halt =>
    rw [noOperands_eq_ok h]
    exact wellFormed_of rfl nofun nofun
  | and | or | mul | div =>
    obtain ⟨ra, rb, ha, hb, e⟩ := twoRegisters_eq_ok hnames h
    rw [e]
    exact wellFormed_of rfl (by simp [Instr.registers, ha, hb]) nofun
  | load | store =>
    obtain ⟨ra, rb, ha, hb, e⟩ := twoRegisters_eq_ok hnames h
    rw [e]
    exact wellFormed_of haccepted (by simp [Instr.registers, ha, hb]) nofun
  | mov =>
    obtain ⟨ra, v, ha, hv, e⟩ := registerAndValue_eq_ok himm hnames h
    rw [e]
    exact wellFormed_of rfl (by simp [Instr.registers, ha]) (by simp [Instr.literals, hv])
  | jmp | jz | call =>
    obtain ⟨v, hv, e⟩ := oneValue_eq_ok himm h
    rw [e]
    exact wellFormed_of rfl nofun (by simp [Instr.literals, hv])
  | add | sub =>
    rcases registerOrValue_eq_ok himm hnames h with ⟨ra, rb, ha, hb, encodable, e⟩ | ⟨ra, v, ha, hv, e⟩
    · rw [e]
      exact wellFormed_of encodable (by simp [Instr.registers, ha, hb]) nofun
    · rw [e]
      exact wellFormed_of rfl (by simp [Instr.registers, ha]) (by simp [Instr.literals, hv])

theorem mnemonicOf_accepted {word : List Char} {m : Mnemonic} (h : mnemonicOf cfg word = some m) :
    m.accepted cfg = true :=
  (Option.filter_eq_some_iff.mp h).2

/-- Everything that a successful encoding of a line says: its mnemonic is one that pass 1 counts, and the
instruction is well-formed. -/
theorem encodeBody_eq_ok {body : List Char} (h : encodeBody cfg policy table body = .ok c) :
    (mnemonicOf cfg (mnemonicText body)).isSome = true ∧
      (cfg.immBits ≤ 6 → c.instr.wellFormed cfg = true) := by
  unfold encodeBody at h
  split at h
  · cases h
  · next m hm =>
    obtain ⟨ts, hts, h⟩ := bind_eq_ok.mp h
    exact ⟨by rw [hm]; rfl, fun himm =>
      instrOfTokens_wellFormed himm (mnemonicOf_accepted hm) (tokensOf_names hts) h⟩

end Shapes

/-! ### Emission -/

section Emission

variable {cfg : Config} {policy : UnresolvedLabelPolicy} {table : List (List Char × Nat)}

/-- All that pass 2 does on a line that is not skipped: nothing, a report, a word, or a word with a report. -/
theorem emitBody_cases (e : Emitted) (l : SourceLine) :
    (l.body = [] ∧ emitBody cfg policy table e l = e) ∨
    (∃ p, emitBody cfg policy table e l = e.report l p) ∨
    ∃ c, l.body ≠ [] ∧ encodeBody cfg policy table l.body = .ok c ∧
      (emitBody cfg policy table e l = e.append cfg l c.instr ∨
        ∃ p, emitBody cfg policy table e l = (e.append cfg l c.instr).report l p) := by
  unfold emitBody
  split
  · next empty => exact .inl ⟨empty, rfl⟩
  · next nonempty =>
    split
    · next p _ => exact .inr (.inl ⟨p, rfl⟩)
    · next c encoded =>
      split
      · exact .inr (.inr ⟨c, nonempty, encoded, .inl rfl⟩)
      · next p _ => exact .inr (.inr ⟨c, nonempty, encoded, .inr ⟨p, rfl⟩⟩)

/-- The rows are canonical words, numbered from 0. -/
def RowsCanonical (cfg : Config) (rows : List ListingRow) : Prop :=
  (∀ row ∈ rows, encode cfg (decode cfg row.word) = row.word) ∧
    rows.map ListingRow.index = List.range rows.length

theorem rowsCanonical_nil (cfg : Config) : RowsCanonical cfg [] :=
  ⟨by simp, rfl⟩

/-- Appending a well-formed instruction keeps this (R94, R101). -/
theorem rowsCanonical_append (hvalid : cfg.Valid) {e : Emitted} (h : RowsCanonical cfg e.rows) (l : SourceLine)
    {i : Instr} (hwf : i.wellFormed cfg = true) : RowsCanonical cfg (e.append cfg l i).rows := by
  obtain ⟨canonical, numbered⟩ := h
  refine ⟨fun row hrow => ?_, ?_⟩
  · rcases List.mem_append.mp hrow with old | new
    · exact canonical row old
    · rw [List.mem_singleton.mp new, decodeInvertsEncode cfg i hvalid hwf]
  · simp [Emitted.append, numbered, List.range_succ]

theorem rowsCanonical_emitBody (hvalid : cfg.Valid) {e : Emitted} (h : RowsCanonical cfg e.rows)
    (l : SourceLine) : RowsCanonical cfg (emitBody cfg policy table e l).rows := by
  rcases emitBody_cases (policy := policy) (table := table) e l with ⟨_, e'⟩ | ⟨p, e'⟩ |
    ⟨c, _, encoded, e' | ⟨p, e'⟩⟩ <;> rw [e']
  · exact h
  · exact h
  all_goals
    obtain ⟨_, wellFormed⟩ := encodeBody_eq_ok encoded
    exact rowsCanonical_append hvalid h l (wellFormed (immBits_le_of_valid hvalid))

theorem rowsCanonical_pass2Line (hvalid : cfg.Valid) {e : Emitted} (h : RowsCanonical cfg e.rows)
    (l : SourceLine) : RowsCanonical cfg (pass2Line cfg policy table e l).rows := by
  unfold pass2Line
  split
  · exact h
  · split
    · exact rowsCanonical_emitBody hvalid h l
    · next name _ => exact rowsCanonical_emitBody (e := { e with seen := e.seen ++ [(name, 0)] }) hvalid h l

theorem rowsCanonical_pass2 (hvalid : cfg.Valid) (lines : List SourceLine) :
    RowsCanonical cfg (pass2 cfg policy table lines).rows :=
  List.foldlRecOn (motive := fun e : Emitted => RowsCanonical cfg e.rows) lines _ (rowsCanonical_nil cfg)
    fun _ h l _ => rowsCanonical_pass2Line hvalid h l

/-- The listing is what pass 2 emitted. -/
theorem assemble_listing {text : List Char} {rows : List ListingRow}
    (h : (assemble cfg policy text).listing = some rows) :
    rows = (pass2 cfg policy (pass1 cfg (sourceLines text)).table (sourceLines text)).rows := by
  unfold assemble at h
  dsimp only at h
  split at h <;> cases h
  rfl

/-- Settles O59: pass 2 appends only words of well-formed instructions. -/
theorem assembledWordsAreCanonical : Obligations.AssembledWordsAreCanonical := by
  intro cfg policy text rows hvalid h
  rw [assemble_listing h]
  exact rowsCanonical_pass2 hvalid _

end Emission

end Sys2Proof.Machine
end

section
/-! SUPPORT. The two passes in step: while neither has reported an error, both know the same labels and pass 1 has
counted the rows that pass 2 has emitted. From these O60. -/

namespace Sys2Proof.Machine

variable {cfg : Config} {policy : UnresolvedLabelPolicy} {table : List (List Char × Nat)}

/-! ### Which names a table defines -/

/-- Two tables define the same names, whatever addresses they give. -/
def SameNames (t u : List (List Char × Nat)) : Prop :=
  ∀ name, (t.lookup name).isSome = (u.lookup name).isSome

/-- What a line adds to a table: its label, if it has one, at address `a` (R89). -/
def labelEntries (l : SourceLine) (a : Nat) : List (List Char × Nat) :=
  match l.label with
  | none => []
  | some name => [(name, a)]

theorem SameNames.append_labelEntries {t u : List (List Char × Nat)} (h : SameNames t u) (l : SourceLine)
    (a b : Nat) : SameNames (t ++ labelEntries l a) (u ++ labelEntries l b) := by
  intro q
  simp only [List.lookup_append, Option.isSome_or, h q, labelEntries]
  cases l.label with
  | none => rfl
  | some name =>
    simp only [List.lookup_cons]
    cases q == name <;> rfl

theorem SameNames.redefines_eq {t u : List (List Char × Nat)} (h : SameNames t u) (l : SourceLine) :
    redefines t l = redefines u l := by
  unfold redefines
  split
  · rfl
  · exact h _

/-! ### A line without errors -/

/-- A label that is recorded without an error is new, and enters the table (R89). -/
theorem recordLabel_of_errors_nil {k : Labels} {l : SourceLine} (h : (recordLabel k l).errors = []) :
    k.errors = [] ∧ redefines k.table l = false ∧
      recordLabel k l = { k with table := k.table ++ labelEntries l k.count } := by
  unfold recordLabel labelEntries at *
  cases hlabel : l.label with
  | none =>
    rw [hlabel] at h
    exact ⟨h, by rw [redefines, hlabel], by simp⟩
  | some name =>
    simp only [hlabel] at h ⊢
    split at h
    · exact absurd h (by simp)
    · next new => exact ⟨h, Bool.eq_false_iff.mpr new, if_neg new⟩

/-- Pass 1 on a line without an error: the label enters the table and the instruction is counted (R89, R90). -/
theorem pass1Line_of_errors_nil {k : Labels} {l : SourceLine} (h : (pass1Line cfg k l).errors = []) :
    k.errors = [] ∧ redefines k.table l = false ∧
      (pass1Line cfg k l).table = k.table ++ labelEntries l k.count ∧
      (pass1Line cfg k l).count = k.count + if countsInPass1 cfg l then 1 else 0 := by
  have recorded : (recordLabel k l).errors = [] := by
    unfold pass1Line at h
    dsimp only at h
    split at h <;> exact h
  obtain ⟨errors, new, table⟩ := recordLabel_of_errors_nil recorded
  refine ⟨errors, new, ?_⟩
  unfold pass1Line
  rw [table]
  dsimp only
  split <;> exact ⟨rfl, rfl⟩

/-- A line with nothing on it counts no instruction: the empty word is no mnemonic (R91). -/
theorem countsInPass1_of_body_nil {l : SourceLine} (h : l.body = []) : countsInPass1 cfg l = false := by
  rw [countsInPass1, h]
  rfl

/-- A line that emits without an error emits exactly what pass 1 counts on it (R90, R91). -/
theorem emitBody_of_errors_nil {e : Emitted} {l : SourceLine}
    (h : (emitBody cfg policy table e l).errors = []) :
    e.errors = [] ∧ (emitBody cfg policy table e l).seen = e.seen ∧
      (emitBody cfg policy table e l).rows.length = e.rows.length + if countsInPass1 cfg l then 1 else 0 := by
  rcases emitBody_cases (cfg := cfg) (policy := policy) (table := table) e l with ⟨empty, out⟩ | ⟨p, out⟩ |
    ⟨c, _, encoded, out | ⟨p, out⟩⟩ <;> rw [out] at h ⊢
  · exact ⟨h, rfl, by rw [countsInPass1_of_body_nil empty]; rfl⟩
  · exact absurd h (by simp [Emitted.report])
  · have counted : countsInPass1 cfg l = true := (encodeBody_eq_ok encoded).1
    exact ⟨h, rfl, by rw [counted]; exact List.length_append⟩
  · exact absurd h (by simp [Emitted.report])

/-- A line whose label is new is not skipped (D27). -/
theorem pass2Line_of_new {e : Emitted} {l : SourceLine} (h : redefines e.seen l = false) :
    pass2Line cfg policy table e l =
      emitBody cfg policy table { e with seen := e.seen ++ labelEntries l 0 } l := by
  rw [pass2Line, if_neg (Bool.eq_false_iff.mp h), labelEntries]
  cases l.label <;> simp

theorem pass2Line_errors_nil {e : Emitted} {l : SourceLine}
    (h : (pass2Line cfg policy table e l).errors = []) : e.errors = [] := by
  cases hnew : redefines e.seen l with
  | true =>
    rw [pass2Line, if_pos hnew] at h
    exact h
  | false =>
    rw [pass2Line_of_new hnew] at h
    exact (emitBody_of_errors_nil h).1

/-! ### The whole text -/

/-- Both passes know the same labels, and pass 1 has counted the rows of pass 2. -/
def InStep (k : Labels) (e : Emitted) : Prop :=
  SameNames k.table e.seen ∧ k.count = e.rows.length

theorem InStep.line {k : Labels} {e : Emitted} (h : InStep k e) {l : SourceLine}
    (hk : (pass1Line cfg k l).errors = []) (he : (pass2Line cfg policy table e l).errors = []) :
    InStep (pass1Line cfg k l) (pass2Line cfg policy table e l) := by
  obtain ⟨names, counted⟩ := h
  obtain ⟨_, new, table', count'⟩ := pass1Line_of_errors_nil hk
  rw [names.redefines_eq l] at new
  rw [pass2Line_of_new new] at he ⊢
  obtain ⟨_, seen', rows'⟩ := emitBody_of_errors_nil he
  refine ⟨?names, ?rows⟩
  case names => rw [table', seen']; exact names.append_labelEntries l _ _
  case rows => rw [count', rows', counted]

/-- A fold that ends without errors started without errors, if each step keeps them. -/
theorem errors_nil_of_foldl {σ α β : Type} {f : σ → α → σ} {errors : σ → List β}
    (keeps : ∀ s a, errors (f s a) = [] → errors s = []) (as : List α) (s : σ)
    (h : errors (as.foldl f s) = []) : errors s = [] := by
  induction as generalizing s with
  | nil => exact h
  | cons a as ih => exact keeps s a (ih (f s a) h)

theorem InStep.lines {k : Labels} {e : Emitted} (h : InStep k e) (ls : List SourceLine)
    (hk : (ls.foldl (pass1Line cfg) k).errors = [])
    (he : (ls.foldl (pass2Line cfg policy table) e).errors = []) :
    InStep (ls.foldl (pass1Line cfg) k) (ls.foldl (pass2Line cfg policy table) e) := by
  induction ls generalizing k e with
  | nil => exact h
  | cons l ls ih =>
    have hk' := errors_nil_of_foldl (errors := Labels.errors) (fun _ _ h => (pass1Line_of_errors_nil h).1)
      ls _ hk
    have he' := errors_nil_of_foldl (errors := Emitted.errors) (fun _ _ h => pass2Line_errors_nil h) ls _ he
    exact ih (h.line hk' he') hk he

/-- The assembler reports the errors of both passes (R97). -/
theorem assemble_errors (cfg : Config) (policy : UnresolvedLabelPolicy) (text : List Char) :
    (assemble cfg policy text).errors = (pass1 cfg (sourceLines text)).errors ++
      (pass2 cfg policy (pass1 cfg (sourceLines text)).table (sourceLines text)).errors := by
  unfold assemble
  dsimp only
  split <;> rfl

/-- Without an error there is a listing, under every policy (R97). -/
theorem assemble_listing_of_errors_nil {text : List Char} (h : (assemble cfg policy text).errors = []) :
    ∃ rows, (assemble cfg policy text).listing = some rows := by
  rw [assemble_errors] at h
  unfold assemble
  dsimp only
  rw [h]
  simp

/-- Settles O60: without errors the passes stay in step to the end of the text, and then there is a listing. -/
theorem passesCountTheSameInstructions : Obligations.PassesCountTheSameInstructions := by
  intro cfg policy text h
  obtain ⟨rows, hlisting⟩ := assemble_listing_of_errors_nil h
  rw [assemble_errors] at h
  obtain ⟨hk, he⟩ := List.append_eq_nil_iff.mp h
  have start : InStep { table := [], count := 0, errors := [] } { rows := [], errors := [], seen := [] } :=
    ⟨fun _ => rfl, rfl⟩
  obtain ⟨_, counted⟩ := start.lines (sourceLines text) hk he
  have emitted : (assemble cfg policy text).instructionCount = rows.length := by
    simp [Assembly.instructionCount, Assembly.words, hlisting]
  rw [emitted, assemble_listing hlisting]
  exact counted.symm

end Sys2Proof.Machine
end
